-- ==== Sys2Proof/Word.lean ====
section
/-! DEFINITION. The widths of the machine: 00_scope.md R4 (XLEN = 64, 8-byte words, 32 registers, 4-byte instructions). -/

namespace Sys2Proof

/-- A register, an address or a memory word: 64 bits (R4). Its arithmetic wraps modulo 2^64 (R105). -/
abbrev Word := BitVec 64

/-- One byte of data memory or of the output stream. -/
abbrev Byte := BitVec 8

/-- One instruction at the binary level: 32 bits (30_encoding.md R50, R54). -/
abbrev InsnWord := BitVec 32

/-- A register identifier, a number 0..31 (10_state.md R10). -/
abbrev RegId := BitVec 5

end Sys2Proof
end

