-- ==== Sys2Proof/Config.lean ====
section
/-! DEFINITION. What is fixed for a run: the parameters of 00_scope.md R4 to R6, and the free values of what the spec leaves unspecified (93_implementation_defined.md U3, U4). -/

namespace Sys2Proof

/-- PAGE_SIZE, used only to round the initial program break (R4). -/
def Config.pageSize : Nat := 4096

/-- STDOUT_FD, the standard-output identifier (R4). -/
def Config.stdoutFd : Word := 1#64

/-- RESET_FILL = `zero` (R26, D11): what a data-memory byte reads as when nothing has written it.
DESIGN CHOICE (the spec's own decided default), log 3. -/
def Config.resetFill : Byte := 0#8

/-- FREE VALUE: the pc of a Faulted state (R15, R156, U3). No body: nothing can be proved of its value. Log 6. -/
opaque Config.freePc : Nat → Word

/-- FREE VALUE: what the link register of a Jal or Jalr holds after its target raised (R85, R156, U3). Log 6. -/
opaque Config.freeLink : Nat → Word

/-- FREE VALUE: how many of the chunks already read a faulting Write call had emitted (U4). Its user bounds it. Log 7. -/
opaque Config.freeChunks : Nat → Nat

/-- The named parameters the source leaves without a number (R6, D5, D6). The defaults are the spec's own. -/
structure Params where
  regSp     : RegId := 2
  regA0     : RegId := 10
  regA1     : RegId := 11
  regA2     : RegId := 12
  regCallNo : RegId := 17
  sysExit   : Word := 93
  sysRead   : Word := 63
  sysWrite  : Word := 64
  sysOpenat : Word := 56
  sysBrk    : Word := 214
  deriving DecidableEq, Repr

/-- The launch parameters (R5), supplied by the host and constant during a run. At the binary level a record of the
code store is one 32-bit word (20_memory.md R40). -/
structure Launch where
  params   : Params := {}
  memBytes : Nat
  codeBase : Word
  code     : List InsnWord
  dataBase : Word
  data     : List Word
  argv     : List (List Byte)
  deriving DecidableEq, Repr

/-- `data_end = DATA_BASE + 8*NDATA` (R5), as an integer. -/
def Launch.dataEnd (l : Launch) : Nat := l.dataBase.toNat + 8 * l.data.length

/-- The launch State.reset starts from: the one of 95_test_vectors.md section 2.8, first row, with no program placed.
DESIGN CHOICE, log 5. -/
def Launch.default : Launch where
  memBytes := 4096
  codeBase := 0x10000
  code     := []
  dataBase := 0
  data     := []
  argv     := []

end Sys2Proof
end

