-- ==== Sys2Proof/Machine/Memory.lean ====
section
/-! DEFINITION. Data memory as plain data (20_memory.md R31, R36; 10_state.md R23): a list of (address, byte) pairs,
addresses strictly rising, no entry equal to what an unlisted address reads as. -/

namespace Sys2Proof.Machine

/-- Data memory. A byte address is a Nat; which addresses exist (R31, R34) is checked by memRead and memWrite. -/
abbrev Memory := List Host.Cell

/-- The canonical form, which every operation keeps (Laws/Memory.lean). -/
def Memory.wf (m : Memory) : Bool :=
  decide (m.Pairwise (fun c d => c.1 < d.1)) && m.all (fun c => c.2 != Config.resetFill)

/-- One byte: the listed value, else the reset fill (R26, D11). -/
def Memory.readByte (m : Memory) (a : Nat) : Byte :=
  match m with
  | [] => Config.resetFill
  | (k, v) :: rest => if k = a then v else Memory.readByte rest a

/-- Lists the value v at address a, keeping the addresses rising. -/
def Memory.insertByte (m : Memory) (a : Nat) (v : Byte) : Memory :=
  match m with
  | [] => [(a, v)]
  | (k, u) :: rest =>
    if a < k then (a, v) :: (k, u) :: rest
    else if a = k then (a, v) :: rest
    else (k, u) :: Memory.insertByte rest a v

/-- Stores one byte; storing the reset fill removes the entry. -/
def Memory.writeByte (m : Memory) (a : Nat) (v : Byte) : Memory :=
  if v = Config.resetFill then m.filter (fun c => c.1 != a) else Memory.insertByte m a v

/-- The bytes of a word in address order: byte j is bits 8j+7 : 8j (R36). -/
def bytesOfWord (w : Word) : List Byte :=
  [w.extractLsb' 0 8, w.extractLsb' 8 8, w.extractLsb' 16 8, w.extractLsb' 24 8,
   w.extractLsb' 32 8, w.extractLsb' 40 8, w.extractLsb' 48 8, w.extractLsb' 56 8]

/-- The word of eight bytes in address order, little-endian (R36). -/
def wordOfBytes (b0 b1 b2 b3 b4 b5 b6 b7 : Byte) : Word := b7 ++ b6 ++ b5 ++ b4 ++ b3 ++ b2 ++ b1 ++ b0

/-- The word whose first byte is at address a (R36). -/
def Memory.readWord (m : Memory) (a : Nat) : Word :=
  wordOfBytes (m.readByte a) (m.readByte (a + 1)) (m.readByte (a + 2)) (m.readByte (a + 3))
    (m.readByte (a + 4)) (m.readByte (a + 5)) (m.readByte (a + 6)) (m.readByte (a + 7))

/-- Stores bytes at rising addresses from a. -/
def Memory.writeBytes (m : Memory) (a : Nat) (bs : List Byte) : Memory :=
  match bs with
  | [] => m
  | b :: rest => Memory.writeBytes (m.writeByte a b) (a + 1) rest

/-- Replaces the word whose first byte is at address a (R33, R36). -/
def Memory.writeWord (m : Memory) (a : Nat) (w : Word) : Memory := m.writeBytes a (bytesOfWord w)

end Sys2Proof.Machine
end

