-- ==== Sys2Proof/Machine/State.lean ====
section
/-! DEFINITION. The machine's state, all of it plain data (10_state.md R10 to R26; 00_scope.md R5), the reasons a step
stops, and the state right after reset. -/

namespace Sys2Proof.Machine

/-- The ten causes of a fatal condition (60_exceptions.md R145, in the order of its codes). -/
inductive FatalCause where
  | misalignedPC | fetchOutOfRange | illegalInstruction | misalignedData | memOutOfRange
  | divideByZero | unsupportedSyscall | unknownSyscall | unsupportedFd | misalignedBreak
  deriving DecidableEq, Repr

/-- A fatal condition, `Cause(v)`: its cause and its recorded value (R145). -/
structure FatalCondition where
  cause : FatalCause
  value : Word
  deriving DecidableEq, Repr

/-- The run status (10_state.md R20). -/
inductive Status where
  | running | halted | faulted
  deriving DecidableEq, Repr

/-- The machine. The launch parameters and the code store stand in it because a step is given nothing else; no step
changes them (R5, R40; log 1). `draws` is the model's own: the counter the free values of Config are applied to (log 6). -/
structure State where
  launch       : Launch
  regs         : Vector Word 32
  pc           : Word
  mem          : Memory
  programBreak : Word
  status       : Status
  exitCode     : Word
  faultCause   : FatalCondition
  stdout       : List Byte
  draws        : Nat
  deriving DecidableEq, Repr

/-- Why a step has no next state. A fatal condition of the spec is none of these: it is a next state with status
Faulted (R156). -/
inductive Fault where
  /-- Raised by step alone, from status Halted: "When `status` is Halted or Faulted the core has no step" (R70). Safe. -/
  | coreHalted
  /-- Raised by step alone, from status Faulted: the same sentence of R70, and R157. Safe. -/
  | coreFaulted
  deriving DecidableEq, Repr

/-- Why something is given no meaning. -/
inductive Refusal where
  /-- Raised by exec for an instruction that has no meaning yet. No arm of exec does. Safe. -/
  | notModelled (mnemonic : String)
  /-- Raised by boot alone, for a launch that lacks a premise of R183 (U7, D16; log 8). Safe. -/
  | illFormedLaunch
  deriving DecidableEq, Repr

/-- The machine right after the reset sequence on Launch.default: the row "MEM_BYTES = 4096, CODE_BASE = 0x10000,
DATA_BASE = 0, no data, no arguments" of 95_test_vectors.md section 2.8. Its three stack words are zero, so memory lists
nothing. exitCode and faultCause: DESIGN CHOICE, log 4; draws: DESIGN CHOICE, log 6. -/
def State.reset : State where
  launch       := Launch.default
  regs         := #v[0, 0, 0xFE8, 0, 0, 0, 0, 0, 0, 0, 0, 0, 0, 0, 0, 0,
                     0, 0, 0, 0, 0, 0, 0, 0, 0, 0, 0, 0, 0, 0, 0, 0]
  pc           := 0x10000
  mem          := []
  programBreak := 0
  status       := .running
  exitCode     := 0
  faultCause   := { cause := .misalignedPC, value := 0 }
  stdout       := []
  draws        := 0

end Sys2Proof.Machine
end

