-- ==== Sys2Proof/Machine/Ops.lean ====
section
/-! DEFINITION. The named operations over registers, pc, memory, and the entry to a fatal condition (00_scope.md
section 6). There is no return from a fatal condition (60_exceptions.md R157), so none stands beside the entry. -/

namespace Sys2Proof.Machine

/-- `x[r]`: register 0 reads as zero (10_state.md R11). -/
def State.readReg (s : State) (r : RegId) : Word :=
  if r = 0#5 then 0#64 else s.regs[r.toNat]'(r.isLt)

/-- `x[r] <- v`: a write to register 0 is discarded (R11, C2). -/
def State.writeReg (s : State) (r : RegId) (v : Word) : State :=
  if r = 0#5 then s else { s with regs := s.regs.set r.toNat v r.isLt }

/-- `sp` = x[REG_SP] (R12). -/
def State.sp (s : State) : Word := s.readReg s.launch.params.regSp
/-- `a0` = x[REG_A0] (R12). -/
def State.a0 (s : State) : Word := s.readReg s.launch.params.regA0
/-- `a1` = x[REG_A1] (R12). -/
def State.a1 (s : State) : Word := s.readReg s.launch.params.regA1
/-- `a2` = x[REG_A2] (R12). -/
def State.a2 (s : State) : Word := s.readReg s.launch.params.regA2
/-- `a7` = x[REG_CALLNO] (R12). -/
def State.a7 (s : State) : Word := s.readReg s.launch.params.regCallNo

/-- `AdvancePc()`: `pc <- (pc + 4) mod 2^64` (R16). -/
def State.advancePc (s : State) : State := { s with pc := s.pc + 4#64 }

/-- The common end of the register instructions: write rd, then advance (40_cycle.md R73). -/
def State.retire (s : State) (rd : RegId) (v : Word) : State := (s.writeReg rd v).advancePc

/-- `JumpPc(t)`: raises MisalignedPC(t) when `t mod 4 != 0`, else `pc <- t` (R17). -/
def State.jumpPc (s : State) (t : Word) : Except FatalCondition State :=
  if t.toNat % 4 = 0 then .ok { s with pc := t } else .error { cause := .misalignedPC, value := t }

/-- The two tests of MemRead and MemWrite, alignment first (20_memory.md R32 to R35, R159). -/
def State.checkData (s : State) (addr : Word) : Except FatalCondition Unit :=
  if addr.toNat % 8 ≠ 0 then .error { cause := .misalignedData, value := addr }
  else if s.launch.memBytes ≤ addr.toNat then .error { cause := .memOutOfRange, value := addr }
  else .ok ()

/-- `MemRead(addr, 8)` (R32). -/
def State.memRead (s : State) (addr : Word) : Except FatalCondition Word :=
  match s.checkData addr with
  | .error f => .error f
  | .ok _ => .ok (s.mem.readWord addr.toNat)

/-- `MemWrite(addr, 8, v)` (R33). -/
def State.memWrite (s : State) (addr v : Word) : Except FatalCondition State :=
  match s.checkData addr with
  | .error f => .error f
  | .ok _ => .ok { s with mem := s.mem.writeWord addr.toNat v }

/-- `stdout <- stdout ++ bs` (00_scope.md section 6; 10_state.md R24). -/
def State.emit (s : State) (bs : List Byte) : State := { s with stdout := s.stdout ++ bs }

/-- `raise Cause(v)` (60_exceptions.md R156): `status <- Faulted`, `fault_cause <- (Cause, v)`. Nothing is saved and
control goes nowhere. The pc of a Faulted state is unspecified (R15, U3): a free value (log 6). -/
def State.raise (s : State) (f : FatalCondition) : State :=
  { s with status := .faulted, faultCause := f, pc := Config.freePc s.draws, draws := s.draws + 1 }

/-- The end of a rule: its result, or the entry to the fatal condition it met. -/
def State.conclude (s : State) (r : Except FatalCondition State) : Host.Outcome State Fault Refusal :=
  match r with
  | .ok t => .next t
  | .error f => .next (s.raise f)

/-- The code of a cause (R145). The numbers are labels (D8). -/
def FatalCause.code : FatalCause → Nat
  | .misalignedPC       => 1
  | .fetchOutOfRange    => 2
  | .illegalInstruction => 3
  | .misalignedData     => 4
  | .memOutOfRange      => 5
  | .divideByZero       => 6
  | .unsupportedSyscall => 7
  | .unknownSyscall     => 8
  | .unsupportedFd      => 9
  | .misalignedBreak    => 10

end Sys2Proof.Machine
end

