-- ==== Sys2Proof/Machine/Flags.lean ====
section
/-! DEFINITION. The core has no flags, condition codes or predicate registers (10_state.md R18). What other machines
keep in flags it has in two places: Sltu's result in a general register, and Beq's direct comparison. -/

namespace Sys2Proof.Machine

/-- Sltu's result: the 64-bit value 1 or 0, unsigned over all 64 bits (44_integer_arithmetic.md R109). -/
def lessThanWord (a b : Word) : Word := if a.toNat < b.toNat then 1#64 else 0#64

/-- Beq's condition: all 64 bits equal (42_control_transfer.md R87). -/
def State.equalRegs (s : State) (rs1 rs2 : RegId) : Bool := s.readReg rs1 == s.readReg rs2

end Sys2Proof.Machine
end

