-- ==== Sys2Proof/Machine/Operands.lean ====
section
/-! DEFINITION. The operand forms: the one addressing mode (43_load_store.md R95), the targets and the link of control
transfer (42_control_transfer.md R85 to R87), the upper immediate (41_upper_immediate.md R80). All sums wrap (R48, R105). -/

namespace Sys2Proof.Machine

/-- `ea = (x[rs1] + imm) mod 2^64` (R95). Jalr's target is the same sum, no bit of it cleared (R86). -/
def State.baseDisp (s : State) (rs1 : RegId) (imm : Word) : Word := s.readReg rs1 + imm

/-- `(pc + imm) mod 2^64`, relative to the address of the instruction itself (R85, R87, R14). -/
def State.pcRelative (s : State) (imm : Word) : Word := s.pc + imm

/-- The link value `(pc + 4) mod 2^64` (R85, R86). -/
def State.link (s : State) : Word := s.pc + 4#64

/-- `sext_32((imm << 12)[31:0])` (R80, C7). -/
def upperImmediate (imm : Word) : Word := ((imm <<< 12).extractLsb' 0 32).signExtend 64

/-- `divu`: floor of the unsigned quotient, for a nonzero divisor (45_multiply_divide.md R115, R117). -/
def quotient (a b : Word) : Word := BitVec.ofNat 64 (a.toNat / b.toNat)

/-- `remu`: the unsigned remainder, for a nonzero divisor (R115, R118). -/
def remainder (a b : Word) : Word := BitVec.ofNat 64 (a.toNat % b.toNat)

end Sys2Proof.Machine
end

