-- ==== Sys2Proof/Machine/ControlTransfer.lean ====
section
/-! DEFINITION. Jal, Jalr, Beq (42_control_transfer.md). No delay slot, no annulment (40_cycle.md R73). -/

namespace Sys2Proof.Machine

/-- `x[rd] <- link; JumpPc(target)` (R85, R86). Whether the link was written when the target raises is unspecified
(R85, R156, U3): the register then holds a free value (log 6). -/
def linkAndJump (rd : RegId) (target : Word) (s : State) : State :=
  match (s.writeReg rd s.link).jumpPc target with
  | .ok t => t
  | .error f => (s.writeReg rd (Config.freeLink s.draws)).raise f

/-- JAL (R85). -/
def execJal (rd : RegId) (imm : Word) (s : State) : Host.Outcome State Fault Refusal :=
  .next (linkAndJump rd (s.pcRelative imm) s)

/-- JALR (R86): the target is computed from the old x[rs1]. -/
def execJalr (rd rs1 : RegId) (imm : Word) (s : State) : Host.Outcome State Fault Refusal :=
  .next (linkAndJump rd (s.baseDisp rs1 imm) s)

/-- BEQ (R87). -/
def execBeq (rs1 rs2 : RegId) (imm : Word) (s : State) : Host.Outcome State Fault Refusal :=
  if s.equalRegs rs1 rs2 then s.conclude (s.jumpPc (s.pcRelative imm)) else .next s.advancePc

end Sys2Proof.Machine
end

