-- ==== Sys2Proof/Machine/IntegerArithmetic.lean ====
section
/-! DEFINITION. Addi, Add, Sub, Sltu (44_integer_arithmetic.md). Sums and differences wrap silently (R105). -/

namespace Sys2Proof.Machine


/-- ADDI (R106). -/
def execAddi (rd rs1 : RegId) (imm : Word) (s : State) : Host.Outcome State Fault Refusal :=
  .next (s.retire rd (s.readReg rs1 + imm))

/-- ADD (R107). -/
def execAdd (rd rs1 rs2 : RegId) (s : State) : Host.Outcome State Fault Refusal :=
  .next (s.retire rd (s.readReg rs1 + s.readReg rs2))

/-- SUB (R108): rs1 minus rs2. -/
def execSub (rd rs1 rs2 : RegId) (s : State) : Host.Outcome State Fault Refusal :=
  .next (s.retire rd (s.readReg rs1 - s.readReg rs2))

/-- SLTU (R109). -/
def execSltu (rd rs1 rs2 : RegId) (s : State) : Host.Outcome State Fault Refusal :=
  .next (s.retire rd (lessThanWord (s.readReg rs1) (s.readReg rs2)))

end Sys2Proof.Machine
end

