-- ==== Sys2Proof/Machine/LoadStore.lean ====
section
/-! DEFINITION. Ld, Sd (43_load_store.md). -/

namespace Sys2Proof.Machine

/-- LD (R96). The read is made, and can raise, also when rd = 0 (D20). -/
def execLd (rd rs1 : RegId) (imm : Word) (s : State) : Host.Outcome State Fault Refusal :=
  s.conclude ((s.memRead (s.baseDisp rs1 imm)).map fun v => s.retire rd v)

/-- SD (R97): rs1 is the base, rs2 the register stored. -/
def execSd (rs1 rs2 : RegId) (imm : Word) (s : State) : Host.Outcome State Fault Refusal :=
  s.conclude ((s.memWrite (s.baseDisp rs1 imm) (s.readReg rs2)).map fun t => t.advancePc)

end Sys2Proof.Machine
end

