-- ==== Sys2Proof/Machine/MultiplyDivide.lean ====
section
/-! DEFINITION. Mul, Divu, Remu (45_multiply_divide.md). -/

namespace Sys2Proof.Machine

/-- `if x[rs2] = 0: raise DivideByZero(pc)`, whatever rd is (R117, R118, D20). -/
def State.checkDivisor (s : State) (b : Word) : Except FatalCondition Unit :=
  if b = 0#64 then .error { cause := .divideByZero, value := s.pc } else .ok ()

/-- MUL (R116): the low 64 bits of the product. -/
def execMul (rd rs1 rs2 : RegId) (s : State) : Host.Outcome State Fault Refusal :=
  .next (s.retire rd (s.readReg rs1 * s.readReg rs2))

/-- DIVU (R117). -/
def execDivu (rd rs1 rs2 : RegId) (s : State) : Host.Outcome State Fault Refusal :=
  s.conclude ((s.checkDivisor (s.readReg rs2)).map fun _ =>
    s.retire rd (quotient (s.readReg rs1) (s.readReg rs2)))

/-- REMU (R118). -/
def execRemu (rd rs1 rs2 : RegId) (s : State) : Host.Outcome State Fault Refusal :=
  s.conclude ((s.checkDivisor (s.readReg rs2)).map fun _ =>
    s.retire rd (remainder (s.readReg rs1) (s.readReg rs2)))

end Sys2Proof.Machine
end

