-- ==== Sys2Proof/Machine/SystemCall.lean ====
section
/-! DEFINITION. Ecall and the calls it dispatches to (46_system_call.md). The whole call is one step; it is no transfer
of control (R161). -/

namespace Sys2Proof.Machine

/-- The result of a call: a0 replaced (R126). -/
def State.returnValue (s : State) (v : Word) : State := s.writeReg s.launch.params.regA0 v

/-- Exit (R127): the exit code is all 64 bits of a0 (D13). -/
def callExit (s : State) : State := { s with exitCode := s.a0, status := .halted }

/-- `nchunks = ceil(len / 8)`, as integers (R128). -/
def chunkCount (len : Word) : Nat := (len.toNat + 7) / 8

/-- The chunk reads of Write, n of them from address a upward (R128): the bytes of the chunks read, and the fatal
condition that ended the reads, if one did. -/
def readChunks (s : State) (n : Nat) (a : Word) : List Byte × Option FatalCondition :=
  match n with
  | 0 => ([], none)
  | k + 1 =>
    match s.memRead a with
    | .error f => ([], some f)
    | .ok w => (bytesOfWord w ++ (readChunks s k (a + 8#64)).1, (readChunks s k (a + 8#64)).2)

/-- What a Write whose chunk read raised had emitted: some of the whole chunks it had read, the number unspecified (U4):
a free value from none to all of them (log 7). -/
def emittedBeforeRaise (s : State) (read : List Byte) : List Byte :=
  read.take (8 * (Config.freeChunks s.draws % (read.length / 8 + 1)))

/-- Write (R128). -/
def callWrite (s : State) : State :=
  if s.a0 ≠ Config.stdoutFd then s.raise { cause := .unsupportedFd, value := s.a0 }
  else
    match readChunks s (chunkCount s.a2) s.a1 with
    | (bs, some f) => (s.emit (emittedBeforeRaise s bs)).raise f
    | (bs, none) => ((s.emit (bs.take s.a2.toNat)).returnValue s.a2).advancePc

/-- The new break (R129): the request where `program_break <=u req <u x[REG_SP]`, else the old break. -/
def breakAfter (s : State) (req : Word) : Word :=
  if s.programBreak.toNat ≤ req.toNat ∧ req.toNat < s.sp.toNat then req else s.programBreak

/-- Brk (R129): alignment first, on every request (D14). -/
def callBrk (s : State) : State :=
  if s.a0.toNat % 8 ≠ 0 then s.raise { cause := .misalignedBreak, value := s.a0 }
  else (({ s with programBreak := breakAfter s s.a0 }).returnValue (breakAfter s s.a0)).advancePc

/-- ECALL (R125): dispatch on all 64 bits of a7 (D23); the pc advances after every call that returns, Exit too (C5). -/
def execEcall (s : State) : Host.Outcome State Fault Refusal :=
  if s.a7 = s.launch.params.sysExit then .next (callExit s).advancePc
  else if s.a7 = s.launch.params.sysWrite then .next (callWrite s)
  else if s.a7 = s.launch.params.sysBrk then .next (callBrk s)
  else if s.a7 = s.launch.params.sysRead then .next (s.raise { cause := .unsupportedSyscall, value := s.a7 })
  else if s.a7 = s.launch.params.sysOpenat then .next (s.raise { cause := .unsupportedSyscall, value := s.a7 })
  else .next (s.raise { cause := .unknownSyscall, value := s.a7 })

end Sys2Proof.Machine
end

