-- ==== Sys2Proof/Machine/UpperImmediate.lean ====
section
/-! DEFINITION. Lui (41_upper_immediate.md). -/

namespace Sys2Proof.Machine

/-- LUI (R80). -/
def execLui (rd : RegId) (imm : Word) (s : State) : Host.Outcome State Fault Refusal :=
  .next (s.retire rd (upperImmediate imm))

end Sys2Proof.Machine
end

