-- ==== Sys2Proof/Syntax.lean ====
section
/-! DEFINITION. The instruction record: 30_encoding.md R51, R52. -/

namespace Sys2Proof

/-- One decoded instruction, "a closed variant set" (R51), with the fields of its shape (R52). `imm` is the record's
immediate, already sign-extended to 64 bits (R53). For `sd`, `rs1` is the base and `rs2` the register stored. -/
inductive Instr where
  | lui   (rd : RegId) (imm : Word)
  | jal   (rd : RegId) (imm : Word)
  | jalr  (rd rs1 : RegId) (imm : Word)
  | beq   (rs1 rs2 : RegId) (imm : Word)
  | ld    (rd rs1 : RegId) (imm : Word)
  | sd    (rs1 rs2 : RegId) (imm : Word)
  | addi  (rd rs1 : RegId) (imm : Word)
  | add   (rd rs1 rs2 : RegId)
  | sub   (rd rs1 rs2 : RegId)
  | sltu  (rd rs1 rs2 : RegId)
  | mul   (rd rs1 rs2 : RegId)
  | divu  (rd rs1 rs2 : RegId)
  | remu  (rd rs1 rs2 : RegId)
  | ecall
  deriving DecidableEq, Repr

end Sys2Proof
end

