-- ==== Sys2Proof/WellFormed.lean ====
section
/-! DEFINITION. The well-formedness check of a record: the immediate ranges of 30_encoding.md R53. -/

namespace Sys2Proof

/-- A 12-bit signed immediate, shapes I and S (R53). -/
abbrev immFits12 (imm : Word) : Prop := -2048 ≤ imm.toInt ∧ imm.toInt ≤ 2047

/-- An even 13-bit signed offset, shape B (R53). -/
abbrev immFits13 (imm : Word) : Prop := -4096 ≤ imm.toInt ∧ imm.toInt ≤ 4094 ∧ imm.toInt % 2 = 0

/-- A 20-bit signed field, shape U (R53). -/
abbrev immFits20 (imm : Word) : Prop := -524288 ≤ imm.toInt ∧ imm.toInt ≤ 524287

/-- An even 21-bit signed offset, shape J (R53). -/
abbrev immFits21 (imm : Word) : Prop := -1048576 ≤ imm.toInt ∧ imm.toInt ≤ 1048574 ∧ imm.toInt % 2 = 0

/-- A record is well-formed when its immediate lies in its shape's range (R53). Register identifiers are 5 bits, so
none is invalid (10_state.md R10). -/
def Instr.wf : Instr → Bool
  | .lui _ imm     => decide (immFits20 imm)
  | .jal _ imm     => decide (immFits21 imm)
  | .jalr _ _ imm  => decide (immFits12 imm)
  | .beq _ _ imm   => decide (immFits13 imm)
  | .ld _ _ imm    => decide (immFits12 imm)
  | .sd _ _ imm    => decide (immFits12 imm)
  | .addi _ _ imm  => decide (immFits12 imm)
  | .add _ _ _     => true
  | .sub _ _ _     => true
  | .sltu _ _ _    => true
  | .mul _ _ _     => true
  | .divu _ _ _    => true
  | .remu _ _ _    => true
  | .ecall         => true

end Sys2Proof
end

