-- ==== Sys2Proof/Decode.lean ====
section
/-! DEFINITION. The binary level (30_encoding.md R54 to R60, R63; 20_memory.md R42): the decoder, total on any word and
any bytes, and after it the encoder. Every bit of it is the spec's decision D2 (general knowledge, not its source). -/

namespace Sys2Proof

/-- The fourteen rows of the opcode map (R56). -/
inductive Opcode where
  | lui | jal | jalr | beq | ld | sd | addi | add | sub | sltu | mul | divu | remu | ecall
  deriving DecidableEq, Repr

/-- The rows, in the order of R56. -/
def Opcode.all : List Opcode :=
  [.lui, .jal, .jalr, .beq, .ld, .sd, .addi, .add, .sub, .sltu, .mul, .divu, .remu, .ecall]

/-- The row's mnemonic, as the table spells it. -/
def Opcode.mnemonic : Opcode → String
  | .lui  => "lui"
  | .jal  => "jal"
  | .jalr => "jalr"
  | .beq  => "beq"
  | .ld   => "ld"
  | .sd   => "sd"
  | .addi => "addi"
  | .add  => "add"
  | .sub  => "sub"
  | .sltu => "sltu"
  | .mul  => "mul"
  | .divu => "divu"
  | .remu => "remu"
  | .ecall => "ecall"

/-- The row's mask (R56). -/
def Opcode.mask : Opcode → InsnWord
  | .lui  => 0x0000007F
  | .jal  => 0x0000007F
  | .jalr => 0x0000707F
  | .beq  => 0x0000707F
  | .ld   => 0x0000707F
  | .sd   => 0x0000707F
  | .addi => 0x0000707F
  | .add  => 0xFE00707F
  | .sub  => 0xFE00707F
  | .sltu => 0xFE00707F
  | .mul  => 0xFE00707F
  | .divu => 0xFE00707F
  | .remu => 0xFE00707F
  | .ecall => 0xFFFFFFFF

/-- The row's match value (R56). -/
def Opcode.pattern : Opcode → InsnWord
  | .lui  => 0x00000037
  | .jal  => 0x0000006F
  | .jalr => 0x00000067
  | .beq  => 0x00000063
  | .ld   => 0x00003003
  | .sd   => 0x00003023
  | .addi => 0x00000013
  | .add  => 0x00000033
  | .sub  => 0x40000033
  | .sltu => 0x00003033
  | .mul  => 0x02000033
  | .divu => 0x02005033
  | .remu => 0x02007033
  | .ecall => 0x00000073

/-- "A word `w` is instruction X when `w AND mask = match`" (R56). -/
def Opcode.selects (op : Opcode) (w : InsnWord) : Bool := w &&& op.mask == op.pattern

/-- The row of an instruction record. -/
def Instr.opcode : Instr → Opcode
  | .lui _ _    => .lui
  | .jal _ _    => .jal
  | .jalr _ _ _ => .jalr
  | .beq _ _ _  => .beq
  | .ld _ _ _   => .ld
  | .sd _ _ _   => .sd
  | .addi _ _ _ => .addi
  | .add _ _ _  => .add
  | .sub _ _ _  => .sub
  | .sltu _ _ _ => .sltu
  | .mul _ _ _  => .mul
  | .divu _ _ _ => .divu
  | .remu _ _ _ => .remu
  | .ecall      => .ecall

/-! Fields of a word (R54). -/

/-- `opcode = w[6:0]` (R54). -/
def opcodeField (w : InsnWord) : BitVec 7 := w.extractLsb' 0 7
/-- `rd = w[11:7]` (R54). -/
def rdField (w : InsnWord) : RegId := w.extractLsb' 7 5
/-- `funct3 = w[14:12]` (R54). -/
def funct3Field (w : InsnWord) : BitVec 3 := w.extractLsb' 12 3
/-- `rs1 = w[19:15]` (R54). -/
def rs1Field (w : InsnWord) : RegId := w.extractLsb' 15 5
/-- `rs2 = w[24:20]` (R54). -/
def rs2Field (w : InsnWord) : RegId := w.extractLsb' 20 5
/-- `funct7 = w[31:25]` (R54). -/
def funct7Field (w : InsnWord) : BitVec 7 := w.extractLsb' 25 7

/-! Immediate assembly (R55): from the word to the record's 64-bit `imm`. -/

/-- Format I: `sext_12(w[31:20])` (R55). -/
def immI (w : InsnWord) : Word := (w.extractLsb' 20 12).signExtend 64
/-- Format S: `sext_12({w[31:25], w[11:7]})` (R55). -/
def immS (w : InsnWord) : Word := (w.extractLsb' 25 7 ++ w.extractLsb' 7 5).signExtend 64
/-- Format B: `sext_13({w[31], w[7], w[30:25], w[11:8], 0})` (R55). -/
def immB (w : InsnWord) : Word :=
  (w.extractLsb' 31 1 ++ w.extractLsb' 7 1 ++ w.extractLsb' 25 6 ++ w.extractLsb' 8 4 ++ 0#1).signExtend 64
/-- Format U: `sext_20(w[31:12])`, not shifted (R55). -/
def immU (w : InsnWord) : Word := (w.extractLsb' 12 20).signExtend 64
/-- Format J: `sext_21({w[31], w[19:12], w[20], w[30:21], 0})` (R55). -/
def immJ (w : InsnWord) : Word :=
  (w.extractLsb' 31 1 ++ w.extractLsb' 12 8 ++ w.extractLsb' 20 1 ++ w.extractLsb' 21 10 ++ 0#1).signExtend 64

/-- The record of a row, its fields taken from the word (R57). -/
def Opcode.build (op : Opcode) (w : InsnWord) : Instr :=
  match op with
  | .lui  => .lui (rdField w) (immU w)
  | .jal  => .jal (rdField w) (immJ w)
  | .jalr => .jalr (rdField w) (rs1Field w) (immI w)
  | .beq  => .beq (rs1Field w) (rs2Field w) (immB w)
  | .ld   => .ld (rdField w) (rs1Field w) (immI w)
  | .sd   => .sd (rs1Field w) (rs2Field w) (immS w)
  | .addi => .addi (rdField w) (rs1Field w) (immI w)
  | .add  => .add (rdField w) (rs1Field w) (rs2Field w)
  | .sub  => .sub (rdField w) (rs1Field w) (rs2Field w)
  | .sltu => .sltu (rdField w) (rs1Field w) (rs2Field w)
  | .mul  => .mul (rdField w) (rs1Field w) (rs2Field w)
  | .divu => .divu (rdField w) (rs1Field w) (rs2Field w)
  | .remu => .remu (rdField w) (rs1Field w) (rs2Field w)
  | .ecall => .ecall

/-- Decoding one word (R57): the one row it matches, and that row's record; `none` where it matches no row (R58). -/
def decodeWord (w : InsnWord) : Option Instr :=
  (Opcode.all.find? (·.selects w)).map (·.build w)

/-! Bytes (20_memory.md R42). -/

/-- The 32-bit word at address a, little-endian: bits 7:0 from byte a, bits 31:24 from byte a+3 (R42). -/
def insnOfBytes (b0 b1 b2 b3 : Byte) : InsnWord := b3 ++ b2 ++ b1 ++ b0

/-- The bytes of a word in address order (R42). -/
def bytesOfInsn (w : InsnWord) : List Byte :=
  [w.extractLsb' 0 8, w.extractLsb' 8 8, w.extractLsb' 16 8, w.extractLsb' 24 8]

/-- Why bytes are no instruction. -/
inductive DecodeReject where
  /-- The word matches no row of the opcode map (R58). -/
  | illegalWord (w : InsnWord)
  /-- Fewer than the four bytes every instruction has (R50). -/
  | tooShort
  deriving DecidableEq, Repr

/-- Decoding the next instruction of a byte image: the instruction and the bytes after it, or why there is none. -/
def decodeBytes : List Byte → Except DecodeReject (Instr × List Byte)
  | b0 :: b1 :: b2 :: b3 :: rest =>
    match decodeWord (insnOfBytes b0 b1 b2 b3) with
    | some i => .ok (i, rest)
    | none   => .error (.illegalWord (insnOfBytes b0 b1 b2 b3))
  | _ => .error .tooShort

/-- The code store of a byte image (R42, R50): one word for each four bytes; `none` where bytes are left over. -/
def codeOfImage : List Byte → Option (List InsnWord)
  | [] => some []
  | b0 :: b1 :: b2 :: b3 :: rest => (codeOfImage rest).map (insnOfBytes b0 b1 b2 b3 :: ·)
  | _ => none

/-- The instruction the decoder reads from a row's bits, numbered as the opcode table numbers them. -/
def decodeTableWord (nbits w : Nat) : Option Instr :=
  match decodeBytes (bytesOfInsn (BitVec.ofNat 32 (w % 2 ^ nbits))) with
  | .ok (i, _) => some i
  | .error _   => none

/-! The encoder (R63): the row's match value, the fields at their places, the immediate's bits scattered by R54. -/

/-- Format R (R54). -/
def encodeR (op : Opcode) (rd rs1 rs2 : RegId) : InsnWord :=
  funct7Field op.pattern ++ rs2 ++ rs1 ++ funct3Field op.pattern ++ rd ++ opcodeField op.pattern

/-- Format I (R54). -/
def encodeI (op : Opcode) (rd rs1 : RegId) (imm : Word) : InsnWord :=
  imm.extractLsb' 0 12 ++ rs1 ++ funct3Field op.pattern ++ rd ++ opcodeField op.pattern

/-- Format S (R54). -/
def encodeS (op : Opcode) (rs1 rs2 : RegId) (imm : Word) : InsnWord :=
  imm.extractLsb' 5 7 ++ rs2 ++ rs1 ++ funct3Field op.pattern ++ imm.extractLsb' 0 5 ++ opcodeField op.pattern

/-- Format B (R54). -/
def encodeB (op : Opcode) (rs1 rs2 : RegId) (imm : Word) : InsnWord :=
  imm.extractLsb' 12 1 ++ imm.extractLsb' 5 6 ++ rs2 ++ rs1 ++ funct3Field op.pattern ++ imm.extractLsb' 1 4
    ++ imm.extractLsb' 11 1 ++ opcodeField op.pattern

/-- Format U (R54). -/
def encodeU (op : Opcode) (rd : RegId) (imm : Word) : InsnWord :=
  imm.extractLsb' 0 20 ++ rd ++ opcodeField op.pattern

/-- Format J (R54). -/
def encodeJ (op : Opcode) (rd : RegId) (imm : Word) : InsnWord :=
  imm.extractLsb' 20 1 ++ imm.extractLsb' 1 10 ++ imm.extractLsb' 11 1 ++ imm.extractLsb' 12 8 ++ rd
    ++ opcodeField op.pattern

/-- The word of a record (R63). Only a well-formed record has one: `encode?` says so. -/
def encode (i : Instr) : InsnWord :=
  match i with
  | .lui rd imm      => encodeU .lui rd imm
  | .jal rd imm      => encodeJ .jal rd imm
  | .jalr rd rs1 imm => encodeI .jalr rd rs1 imm
  | .beq rs1 rs2 imm => encodeB .beq rs1 rs2 imm
  | .ld rd rs1 imm   => encodeI .ld rd rs1 imm
  | .sd rs1 rs2 imm  => encodeS .sd rs1 rs2 imm
  | .addi rd rs1 imm => encodeI .addi rd rs1 imm
  | .add rd rs1 rs2  => encodeR .add rd rs1 rs2
  | .sub rd rs1 rs2  => encodeR .sub rd rs1 rs2
  | .sltu rd rs1 rs2 => encodeR .sltu rd rs1 rs2
  | .mul rd rs1 rs2  => encodeR .mul rd rs1 rs2
  | .divu rd rs1 rs2 => encodeR .divu rd rs1 rs2
  | .remu rd rs1 rs2 => encodeR .remu rd rs1 rs2
  | .ecall           => Opcode.ecall.pattern

/-- "A record whose immediate is outside the range of rule R53, or odd for shapes B and J, has no word" (R63). -/
def encode? (i : Instr) : Option InsnWord := if i.wf then some (encode i) else none

end Sys2Proof
end

