-- ==== Sys2Proof/Machine/Fetch.lean ====
section
/-! DEFINITION. Instruction fetch from the code store (20_memory.md R40, R41; 40_cycle.md R71), and placing a word
where the next fetch looks. -/

namespace Sys2Proof.Machine

/-- The index of `pc` in the code store: `((pc - CODE_BASE) mod 2^64) / 4` (R41, D10). -/
def Launch.index (l : Launch) (pc : Word) : Nat := (pc - l.codeBase).toNat / 4

/-- `Fetch(pc)` (R41): alignment first, then range; at the binary level a word that matches no row raises
IllegalInstruction (30_encoding.md R58). -/
def fetch (l : Launch) (pc : Word) : Except FatalCondition Instr :=
  if pc.toNat % 4 ≠ 0 then .error { cause := .misalignedPC, value := pc }
  else
    match l.code[Launch.index l pc]? with
    | none => .error { cause := .fetchOutOfRange, value := pc }
    | some w =>
      match decodeWord w with
      | none => .error { cause := .illegalInstruction, value := w.setWidth 64 }
      | some i => .ok i

/-- The code store with w at `pc`: the record replaced where `pc` lies in the store, else a store of that one word. -/
def Launch.place (l : Launch) (pc : Word) (w : InsnWord) : Launch :=
  if Launch.index l pc < l.code.length then { l with code := l.code.set (Launch.index l pc) w }
  else { l with codeBase := pc, code := [w] }

/-- `s` about to fetch w: w stands in the code store at the pc, whose two low bits are cleared, and the status is Running.
On a Running state with an aligned pc only the code store changes. -/
def State.placeWord (s : State) (w : InsnWord) : State :=
  { s with
    launch := Launch.place s.launch (s.pc &&& ~~~3#64) w
    pc := s.pc &&& ~~~3#64
    status := .running }

end Sys2Proof.Machine
end

