-- ==== Sys2Proof/Machine/Step.lean ====
section
/-! DEFINITION. The cycle (40_cycle.md R70): fetch at the pc, then execute. -/

namespace Sys2Proof.Machine

/-- One step. While Running exactly one: the fetched record executed, or the fetch's fatal condition taken. "When
`status` is Halted or Faulted the core has no step" (R70). -/
def step (s : State) : Host.Outcome State Fault Refusal :=
  match s.status with
  | .halted => .fault .coreHalted
  | .faulted => .fault .coreFaulted
  | .running =>
    match fetch s.launch s.pc with
    | .error f => .next (s.raise f)
    | .ok i => exec i s

/-- `s` with the instruction whose bits are w placed where step fetches next. -/
def State.withFetchWord (s : State) (nbits w : Nat) : State :=
  s.placeWord (BitVec.ofNat 32 (w % 2 ^ nbits))

end Sys2Proof.Machine
end

