-- ==== Sys2Proof/Machine/Assembly.lean ====
section
/-! DEFINITION. The assembler forms of 30_encoding.md R61 and the record each stands for. There are no
pseudo-instructions (R62). Used by no other rule (D17). -/

namespace Sys2Proof.Machine

/-- "Registers are written `x0` to `x31`" (R61). -/
def registerNumbers : List String :=
  ["x0", "x1", "x2", "x3", "x4", "x5", "x6", "x7", "x8", "x9", "x10", "x11", "x12", "x13", "x14", "x15"] ++
  ["x16", "x17", "x18", "x19", "x20", "x21", "x22", "x23", "x24", "x25", "x26", "x27", "x28", "x29", "x30", "x31"]

/-- The register of a written name: one of the six names of 10_state.md R12, or a number (R61). -/
def registerNamed (p : Params) (name : String) : Option RegId :=
  if name = "zero" then some 0
  else if name = "sp" then some p.regSp
  else if name = "a0" then some p.regA0
  else if name = "a1" then some p.regA1
  else if name = "a2" then some p.regA2
  else if name = "a7" then some p.regCallNo
  else (registerNumbers.findIdx? (· == name)).map (BitVec.ofNat 5)

/-- One line of R61's table: the operands in the order they are written. -/
inductive AsmLine where
  | lui   (rd : RegId) (imm20 : Int)
  | jal   (rd : RegId) (offset : Int)
  | jalr  (rd : RegId) (imm : Int) (rs1 : RegId)
  | beq   (rs1 rs2 : RegId) (offset : Int)
  | ld    (rd : RegId) (imm : Int) (rs1 : RegId)
  | sd    (rs2 : RegId) (imm : Int) (rs1 : RegId)
  | addi  (rd rs1 : RegId) (imm : Int)
  | add   (rd rs1 rs2 : RegId)
  | sub   (rd rs1 rs2 : RegId)
  | sltu  (rd rs1 rs2 : RegId)
  | mul   (rd rs1 rs2 : RegId)
  | divu  (rd rs1 rs2 : RegId)
  | remu  (rd rs1 rs2 : RegId)
  | ecall
  deriving DecidableEq, Repr

/-- A 12-bit signed operand (R61). -/
def asmImm12 (n : Int) : Option Word := if -2048 ≤ n ∧ n ≤ 2047 then some (BitVec.ofInt 64 n) else none

/-- An even branch offset (R61). -/
def asmOffset13 (n : Int) : Option Word :=
  if -4096 ≤ n ∧ n ≤ 4094 ∧ n % 2 = 0 then some (BitVec.ofInt 64 n) else none

/-- An even jump offset (R61). -/
def asmOffset21 (n : Int) : Option Word :=
  if -1048576 ≤ n ∧ n ≤ 1048574 ∧ n % 2 = 0 then some (BitVec.ofInt 64 n) else none

/-- lui's operand, -524288..1048575 taken modulo 2^20 as the field, then sext_20 (R61). -/
def asmImm20 (n : Int) : Option Word :=
  if -524288 ≤ n ∧ n ≤ 1048575 then some ((BitVec.ofInt 20 n).signExtend 64) else none

/-- The record a line stands for (R61); none where an operand is out of its range. -/
def assemble : AsmLine → Option Instr
  | .lui rd n       => (asmImm20 n).map (.lui rd ·)
  | .jal rd n       => (asmOffset21 n).map (.jal rd ·)
  | .jalr rd n rs1  => (asmImm12 n).map (.jalr rd rs1 ·)
  | .beq rs1 rs2 n  => (asmOffset13 n).map (.beq rs1 rs2 ·)
  | .ld rd n rs1    => (asmImm12 n).map (.ld rd rs1 ·)
  | .sd rs2 n rs1   => (asmImm12 n).map (.sd rs1 rs2 ·)
  | .addi rd rs1 n  => (asmImm12 n).map (.addi rd rs1 ·)
  | .add rd rs1 rs2  => some (.add rd rs1 rs2)
  | .sub rd rs1 rs2  => some (.sub rd rs1 rs2)
  | .sltu rd rs1 rs2 => some (.sltu rd rs1 rs2)
  | .mul rd rs1 rs2  => some (.mul rd rs1 rs2)
  | .divu rd rs1 rs2 => some (.divu rd rs1 rs2)
  | .remu rd rs1 rs2 => some (.remu rd rs1 rs2)
  | .ecall           => some .ecall

/-- The line of a record: its immediate as a signed integer. -/
def disassemble : Instr → AsmLine
  | .lui rd imm      => .lui rd imm.toInt
  | .jal rd imm      => .jal rd imm.toInt
  | .jalr rd rs1 imm => .jalr rd imm.toInt rs1
  | .beq rs1 rs2 imm => .beq rs1 rs2 imm.toInt
  | .ld rd rs1 imm   => .ld rd imm.toInt rs1
  | .sd rs1 rs2 imm  => .sd rs2 imm.toInt rs1
  | .addi rd rs1 imm => .addi rd rs1 imm.toInt
  | .add rd rs1 rs2  => .add rd rs1 rs2
  | .sub rd rs1 rs2  => .sub rd rs1 rs2
  | .sltu rd rs1 rs2 => .sltu rd rs1 rs2
  | .mul rd rs1 rs2  => .mul rd rs1 rs2
  | .divu rd rs1 rs2 => .divu rd rs1 rs2
  | .remu rd rs1 rs2 => .remu rd rs1 rs2
  | .ecall           => .ecall

end Sys2Proof.Machine
end

