-- ==== Sys2Proof/Machine/Boot.lean ====
section
/-! DEFINITION. The reset sequence (70_reset_and_hazards.md R170 to R182) on any launch, and what a launch must satisfy
(R183). -/

namespace Sys2Proof.Machine

/-- The constraints on the named parameters (00_scope.md R6). -/
def Params.wf (p : Params) : Bool :=
  decide ([0, p.regSp, p.regA0, p.regA1, p.regA2, p.regCallNo].Nodup) &&
  decide ([p.sysExit, p.sysRead, p.sysWrite, p.sysOpenat, p.sysBrk].Nodup)

/-- The initial program break, `ceil(data_end / 4096) * 4096` as integers (R174, D25). -/
def Launch.initialBreak (l : Launch) : Nat :=
  (l.dataEnd + (Config.pageSize - 1)) / Config.pageSize * Config.pageSize

/-- `S[i] = floor(len / 8) + 1`, the words an argument string takes (R177, R184). -/
def stringWords (arg : List Byte) : Nat := arg.length / 8 + 1

/-- `T + ARGC + 3`, the words pushed during reset (R184). -/
def Launch.stackWords (l : Launch) : Nat := (l.argv.map stringWords).sum + l.argv.length + 3

/-- The premises (a), (b), (c), (e), (f) of R183, with R6's on the parameters. Premise (d), that every CODE[i] is a
record, holds no condition on a 32-bit word here: at the binary level an illegal word faults when fetched (R58; log 8). -/
def Launch.wf (l : Launch) : Bool :=
  Params.wf l.params &&
  decide (l.memBytes % 8 = 0) && decide (l.memBytes < 2 ^ 64) &&
  decide (l.codeBase.toNat % 4 = 0) && decide (l.codeBase.toNat + 4 * l.code.length ≤ 2 ^ 64) &&
  decide (l.dataBase.toNat % 8 = 0) && decide (l.dataEnd ≤ l.memBytes) &&
  decide (8 * Launch.stackWords l ≤ l.memBytes) &&
  decide (Launch.initialBreak l + 8 * Launch.stackWords l ≤ l.memBytes)

/-- Step 0 (R171): registers and memory at the reset fill, output empty. The other fields are placeholders that steps 1
to 6 overwrite, but for the latches (log 4). -/
def State.created (l : Launch) : State where
  launch       := l
  regs         := Vector.replicate 32 0
  pc           := 0
  mem          := []
  programBreak := 0
  status       := .running
  exitCode     := 0
  faultCause   := { cause := .misalignedPC, value := 0 }
  stdout       := []
  draws        := 0

/-- Step 4 (R175): the data segment's words stored at rising addresses. -/
def copyData (ds : List Word) (a : Word) (s : State) : Except FatalCondition State :=
  match ds with
  | [] => .ok s
  | d :: rest =>
    match s.memWrite a d with
    | .error f => .error f
    | .ok t => copyData rest (a + 8#64) t

/-- `push_stack(v)` (R176). -/
def pushStack (s : State) (v : Word) : Except FatalCondition State :=
  (s.writeReg s.launch.params.regSp (s.sp - 8#64)).memWrite (s.sp - 8#64) v

/-- Pushes words in the order given. -/
def pushWords (vs : List Word) (s : State) : Except FatalCondition State :=
  match vs with
  | [] => .ok s
  | v :: rest =>
    match pushStack s v with
    | .error f => .error f
    | .ok t => pushWords rest t

/-- The bytes of an argument string padded with `8 - (L mod 8)` NUL bytes (R177, D15). -/
def padString (arg : List Byte) : List Byte := arg ++ List.replicate (8 - arg.length % 8) 0

/-- Chunks of eight bytes, each a little-endian word (R177). -/
def packWords : List Byte → List Word
  | b0 :: b1 :: b2 :: b3 :: b4 :: b5 :: b6 :: b7 :: rest =>
    wordOfBytes b0 b1 b2 b3 b4 b5 b6 b7 :: packWords rest
  | _ => []

/-- Step 5a (R177): the strings from the last to the first, each one's chunks from the last to the first. The words
answered are the pointers `ptr[0]`, `ptr[1]`, …. -/
def pushStrings (args : List (List Byte)) (s : State) : Except FatalCondition (List Word × State) :=
  match args with
  | [] => .ok ([], s)
  | arg :: rest =>
    match pushStrings rest s with
    | .error f => .error f
    | .ok (ptrs, t) =>
      match pushWords (packWords (padString arg)).reverse t with
      | .error f => .error f
      | .ok u => .ok (u.sp :: ptrs, u)

/-- Step 5 (R177 to R181): the strings, the two terminators, the pointers from the last to the first, argc. -/
def layStack (s : State) : Except FatalCondition State :=
  match pushStrings s.launch.argv s with
  | .error f => .error f
  | .ok (ptrs, t) =>
    pushWords ([0#64, 0#64] ++ ptrs.reverse ++ [BitVec.ofNat 64 s.launch.argv.length]) t

/-- Steps 1 and 3 around step 2 (R172 to R174). -/
def initControl (s : State) : Except FatalCondition State :=
  match (s.writeReg s.launch.params.regSp (BitVec.ofNat 64 s.launch.memBytes)).jumpPc s.launch.codeBase with
  | .error f => .error f
  | .ok t => .ok { t with programBreak := BitVec.ofNat 64 (Launch.initialBreak s.launch) }

/-- Steps 0 to 6 in order (R170). -/
def resetSequence (l : Launch) : Except FatalCondition State :=
  match initControl (State.created l) with
  | .error f => .error f
  | .ok s =>
    match copyData l.data l.dataBase s with
    | .error f => .error f
    | .ok t =>
      match layStack t with
      | .error f => .error f
      | .ok u => .ok { u with status := .running }

/-- A launch of the core: no meaning where R183's premises fail (U7, D16); else the reset sequence, a fatal condition met
in it taken (R183). -/
def boot (l : Launch) : Host.Outcome State Fault Refusal :=
  if Launch.wf l then (State.created l).conclude (resetSequence l) else .refused .illFormedLaunch

end Sys2Proof.Machine
end

