-- ==== Sys2Proof/Machine/Observe.lean ====
section
/-! DEFINITION. What the host may observe of a run: the STDOUT and STATUS interfaces (00_scope.md R8; 40_cycle.md R76). -/

namespace Sys2Proof.Machine

/-- While Running the growing output alone; when Halted the exit code and the output; when Faulted the cause and the
output, of which only the part of completed Write calls may be relied on (R76, R156). -/
inductive HostView where
  | running (stdout : List Byte)
  | halted (exitCode : Word) (stdout : List Byte)
  | faulted (cause : FatalCondition) (stdout : List Byte)
  deriving DecidableEq, Repr

/-- The host's view of a state (R76, D24): no register, memory, pc or break. -/
def hostView (s : State) : HostView :=
  match s.status with
  | .running => .running s.stdout
  | .halted => .halted s.exitCode s.stdout
  | .faulted => .faulted s.faultCause s.stdout

end Sys2Proof.Machine
end

