-- ==== Sys2Proof/Safety.lean ====
section
/-! DEFINITION. The terms the claims use: the machine's invariant, safe runs, and frames. -/

namespace Sys2Proof.Machine

/-- What every state of a run from a well-formed launch satisfies. Nothing is said of the pc, the registers or the
break of a Faulted state (R156, U3). -/
structure State.Inv (s : State) : Prop where
  /-- The launch is well-formed (R183). -/
  launch : Launch.wf s.launch = true
  /-- Memory is in canonical form. -/
  memCanonical : s.mem.wf = true
  /-- No byte is listed outside [0, MEM_BYTES) (R31). -/
  memInside : ∀ c ∈ s.mem, c.1 < s.launch.memBytes
  /-- The slot of the hard-wired register holds zero (R11). -/
  zeroSlot : s.regs[0] = 0#64
  /-- The pc of a state that will fetch is a multiple of 4 (R14). -/
  pcAligned : s.status = .running → s.pc.toNat % 4 = 0
  /-- The lower half of the break's invariant, and its alignment (R19). -/
  breakOk : s.status ≠ .faulted → s.launch.dataEnd ≤ s.programBreak.toNat ∧ s.programBreak.toNat % 8 = 0

/-- No fatal condition has been met. A Faulted state is never a successful end (R157). -/
def State.Safe (s : State) : Prop := s.status ≠ .faulted

/-- No state of the next k steps is Faulted. -/
def SafeFor : Nat → State → Prop
  | 0, s => s.Safe
  | k + 1, s => s.Safe ∧ ∀ t, step s = .next t → SafeFor k t

/-- At most k cycles, stopping where the status is no longer Running: a run under fuel (R75). -/
def runCycles : Nat → State → State
  | 0, s => s
  | k + 1, s =>
    match step s with
    | .next t => runCycles k t
    | .fault _ => s
    | .refused _ => s

/-- Every register but rd reads as before. -/
def SameRegsBut (rd : RegId) (s t : State) : Prop := ∀ r, r ≠ rd → t.readReg r = s.readReg r

/-- Every register reads as before. -/
def SameRegs (s t : State) : Prop := ∀ r, t.readReg r = s.readReg r

/-- Every byte of data memory reads as before. -/
def SameMem (s t : State) : Prop := ∀ a, t.mem.readByte a = s.mem.readByte a

/-- Every byte outside the word at address a reads as before. -/
def SameMemOutside (a : Nat) (s t : State) : Prop :=
  ∀ b, (b < a ∨ a + 8 ≤ b) → t.mem.readByte b = s.mem.readByte b

/-- The launch, the program break, the status, the latches and the output are as before. -/
def SameControl (s t : State) : Prop :=
  t.launch = s.launch ∧ t.programBreak = s.programBreak ∧ t.status = s.status ∧ t.exitCode = s.exitCode ∧
  t.faultCause = s.faultCause ∧ t.stdout = s.stdout

/-- A register instruction's whole effect: rd holds v (register 0 holds 0, R11), the pc advances by 4, nothing else
changes. -/
def WritesRegAndAdvances (rd : RegId) (v : Word) (s t : State) : Prop :=
  t.readReg rd = (if rd = 0#5 then 0#64 else v) ∧ SameRegsBut rd s t ∧ t.pc = s.pc + 4#64 ∧ SameMem s t ∧ SameControl s t

/-- The instruction, or the fetch, met the fatal condition f and took it (R156): what may be relied on afterwards. -/
def RaisesAt (f : FatalCondition) (s t : State) : Prop :=
  t.status = .faulted ∧ t.faultCause = f ∧ t.launch = s.launch ∧ t.exitCode = s.exitCode

/-- The same, with the output as before: every raise but that of a Write's chunk read (R156, U4). -/
def RaisesQuietly (f : FatalCondition) (s t : State) : Prop := RaisesAt f s t ∧ t.stdout = s.stdout

/-- The registers an instruction reads (10_state.md R13); Ecall's by the call. -/
def sourceRegs (i : Instr) (s : State) : List RegId :=
  match i with
  | .lui _ _       => []
  | .jal _ _       => []
  | .jalr _ rs1 _  => [rs1]
  | .beq rs1 rs2 _ => [rs1, rs2]
  | .ld _ rs1 _    => [rs1]
  | .sd rs1 rs2 _  => [rs1, rs2]
  | .addi _ rs1 _  => [rs1]
  | .add _ rs1 rs2  => [rs1, rs2]
  | .sub _ rs1 rs2  => [rs1, rs2]
  | .sltu _ rs1 rs2 => [rs1, rs2]
  | .mul _ rs1 rs2  => [rs1, rs2]
  | .divu _ rs1 rs2 => [rs1, rs2]
  | .remu _ rs1 rs2 => [rs1, rs2]
  | .ecall =>
    let p := s.launch.params
    if s.a7 = p.sysExit then [p.regCallNo, p.regA0]
    else if s.a7 = p.sysWrite then [p.regCallNo, p.regA0, p.regA1, p.regA2]
    else if s.a7 = p.sysBrk then [p.regCallNo, p.regA0, p.regSp]
    else [p.regCallNo]

/-- The registers an instruction writes (10_state.md R13); Ecall's by the call. -/
def destRegs (i : Instr) (s : State) : List RegId :=
  match i with
  | .lui rd _      => [rd]
  | .jal rd _      => [rd]
  | .jalr rd _ _   => [rd]
  | .beq _ _ _     => []
  | .ld rd _ _     => [rd]
  | .sd _ _ _      => []
  | .addi rd _ _   => [rd]
  | .add rd _ _    => [rd]
  | .sub rd _ _    => [rd]
  | .sltu rd _ _   => [rd]
  | .mul rd _ _    => [rd]
  | .divu rd _ _   => [rd]
  | .remu rd _ _   => [rd]
  | .ecall =>
    let p := s.launch.params
    if s.a7 = p.sysExit then []
    else if s.a7 = p.sysWrite then [p.regA0]
    else if s.a7 = p.sysBrk then [p.regA0]
    else []

/-- Where an instruction that completes leaves the pc (10_state.md R15). -/
def nextPc (i : Instr) (s : State) : Word :=
  match i with
  | .jal _ imm       => s.pc + imm
  | .jalr _ rs1 imm  => s.readReg rs1 + imm
  | .beq rs1 rs2 imm => if s.readReg rs1 = s.readReg rs2 then s.pc + imm else s.pc + 4#64
  | .lui _ _         => s.pc + 4#64
  | .ld _ _ _        => s.pc + 4#64
  | .sd _ _ _        => s.pc + 4#64
  | .addi _ _ _      => s.pc + 4#64
  | .add _ _ _       => s.pc + 4#64
  | .sub _ _ _       => s.pc + 4#64
  | .sltu _ _ _      => s.pc + 4#64
  | .mul _ _ _       => s.pc + 4#64
  | .divu _ _ _      => s.pc + 4#64
  | .remu _ _ _      => s.pc + 4#64
  | .ecall           => s.pc + 4#64

/-- The address of chunk i of a Write call: `(buf + 8*i) mod 2^64` (46_system_call.md R128). -/
def chunkAddr (s : State) (i : Nat) : Word := s.a1 + BitVec.ofNat 64 (8 * i)

/-- Byte k of a Write call's buffer, taken from chunk k/8 (R128, R36). -/
def bufferByte (s : State) (k : Nat) : Byte := s.mem.readByte ((chunkAddr s (k / 8)).toNat + k % 8)

/-- Chunk i of a Write call reads without a fatal condition (20_memory.md R32). -/
def ChunkReadable (s : State) (i : Nat) : Prop :=
  (chunkAddr s i).toNat % 8 = 0 ∧ (chunkAddr s i).toNat < s.launch.memBytes

/-- `ptr[i] = MEM_BYTES - 8*(S[i] + … + S[ARGC-1])` (70_reset_and_hazards.md R184). -/
def argPointer (l : Launch) (i : Nat) : Nat := l.memBytes - 8 * ((l.argv.drop i).map stringWords).sum

/-- The final sp of the reset sequence, `MEM_BYTES - 8*(T + ARGC + 3)` (R184). -/
def initialSp (l : Launch) : Nat := l.memBytes - 8 * Launch.stackWords l

end Sys2Proof.Machine
end

