-- ==== Sys2Proof/Certificates/Slice0/Obligations.lean ====
section
/-! DEFINITION. The statements for the provers. Each is about every launch, register number and call number the spec
admits (Params.wf where a rule needs it), and none reads what is unspecified in a Faulted state. Where a clause rests on
a decision the spec marks as its own (D<n> of 92_eei_decisions.md), the docstring names it. -/

open Sys2Proof Sys2Proof.Machine

/-! ### Encoding -/

/-- R56, R57, R58 (decisions D2, D4, log 9): the map's (match, mask) pairs, no word in two rows, a matched word decodes
to its row's record, an unmatched word to nothing. -/
def Obligations.OpcodeMapIsUnambiguous : Prop :=
  Opcode.all.map (fun op => (op.mnemonic, op.pattern, op.mask)) =
    [("lui", 0x00000037, 0x0000007F), ("jal", 0x0000006F, 0x0000007F), ("jalr", 0x00000067, 0x0000707F),
     ("beq", 0x00000063, 0x0000707F), ("ld", 0x00003003, 0x0000707F), ("sd", 0x00003023, 0x0000707F),
     ("addi", 0x00000013, 0x0000707F), ("add", 0x00000033, 0xFE00707F), ("sub", 0x40000033, 0xFE00707F),
     ("sltu", 0x00003033, 0xFE00707F), ("mul", 0x02000033, 0xFE00707F), ("divu", 0x02005033, 0xFE00707F),
     ("remu", 0x02007033, 0xFE00707F), ("ecall", 0x00000073, 0xFFFFFFFF)] ∧
  (∀ (w : InsnWord) (op op' : Opcode), w &&& op.mask = op.pattern → w &&& op'.mask = op'.pattern → op = op') ∧
  (∀ (w : InsnWord) (op : Opcode), w &&& op.mask = op.pattern → decodeWord w = some (op.build w)) ∧
  ∀ w : InsnWord, (∀ op : Opcode, w &&& op.mask ≠ op.pattern) → decodeWord w = none

/-- Every well-formed record, at every operand value, is read back from its word (R63; decisions D2, D3, log 9). -/
def Obligations.DecodeOfEncodeIsTheRecord : Prop :=
  ∀ i : Instr, i.wf = true → decodeWord (encode i) = some i

/-- Every word that decodes is the word of the record it decodes to, and that record is well-formed: no bit of a word is
dropped (R57, R53; decisions D2, D3, log 9). -/
def Obligations.EncodeOfDecodeIsTheWord : Prop :=
  ∀ (w : InsnWord) (i : Instr), decodeWord w = some i → i.wf = true ∧ encode i = w

/-- The eleven worked words of R63, both ways, and R63's records without a word (decisions D2, D3, log 9). -/
def Obligations.WorkedWordsEncodeAndDecode : Prop :=
  (∀ p ∈ [(Instr.addi 5 0 0, 0x00000293#32), (.ld 5 11 8, 0x0085B283#32), (.sd 2 5 (-8), 0xFE513C23#32),
      (.beq 6 7 16, 0x00730863#32), (.jal 0 (-12), 0xFF5FF06F#32), (.jal 1 24, 0x018000EF#32),
      (.jalr 0 1 0, 0x00008067#32), (.lui 11 1, 0x000015B7#32), (.sub 10 5 6, 0x40628533#32),
      (.divu 10 5 6, 0x0262D533#32), (.ecall, 0x00000073#32)],
    encode? p.1 = some p.2 ∧ decodeWord p.2 = some p.1) ∧
  ∀ i : Instr, i.wf = false → encode? i = none

/-- A byte image: the word at its first four bytes is assembled little-endian (R42; decision D18, log 9), the decoder
reads it and leaves the bytes after it, and the bytes of a word give the word back. -/
def Obligations.ImageBytesDecodeLittleEndian : Prop :=
  (∀ (b0 b1 b2 b3 : Byte) (rest : List Byte) (i : Instr),
    decodeWord (b3 ++ b2 ++ b1 ++ b0) = some i → decodeBytes (b0 :: b1 :: b2 :: b3 :: rest) = .ok (i, rest)) ∧
  (∀ (w : InsnWord) (i : Instr) (rest : List Byte),
    decodeWord w = some i → decodeBytes (bytesOfInsn w ++ rest) = .ok (i, rest)) ∧
  ∀ ws : List InsnWord, codeOfImage (ws.flatMap bytesOfInsn) = some ws

/-- R61 (decision D17): the line of a well-formed record assembles to that record, and a line only ever assembles to a
well-formed record. -/
def Obligations.AssembleInvertsDisassemble : Prop :=
  (∀ i : Instr, i.wf = true → assemble (disassemble i) = some i) ∧
  ∀ (a : AsmLine) (i : Instr), assemble a = some i → i.wf = true

/-! ### Fetch and the cycle -/

/-- R41 at the binary level: the tests of Fetch in their order, and (decision D10) a pc below CODE_BASE. -/
def Obligations.FetchTestsAlignmentThenRange : Prop :=
  ∀ (l : Launch) (pc : Word),
    (pc.toNat % 4 ≠ 0 → fetch l pc = .error { cause := .misalignedPC, value := pc }) ∧
    (pc.toNat % 4 = 0 → l.code.length ≤ (pc - l.codeBase).toNat / 4 →
      fetch l pc = .error { cause := .fetchOutOfRange, value := pc }) ∧
    (∀ w i, pc.toNat % 4 = 0 → l.code[(pc - l.codeBase).toNat / 4]? = some w → decodeWord w = some i →
      fetch l pc = .ok i) ∧
    (pc.toNat % 4 = 0 → l.codeBase.toNat + 4 * l.code.length ≤ 2 ^ 64 → pc.toNat < l.codeBase.toNat →
      fetch l pc = .error { cause := .fetchOutOfRange, value := pc })

/-- A step runs the decoded instruction (R70): while Running, with the pc aligned and its word decoding to i, step is
exec of i at that same state. -/
def Obligations.StepRunsTheFetchedRecord : Prop :=
  ∀ (s : State) (w : InsnWord) (i : Instr), s.status = .running → s.pc.toNat % 4 = 0 →
    s.launch.code[(s.pc - s.launch.codeBase).toNat / 4]? = some w → decodeWord w = some i →
    step s = exec i s

/-- R70, R146, R147 (the entry is decision D8): a Running core whose fetch meets a fatal condition takes it, and nothing
of an instruction is executed. -/
def Obligations.StepTakesTheFetchFault : Prop :=
  ∀ s : State, s.status = .running →
    (s.pc.toNat % 4 ≠ 0 →
      ∃ t, step s = .next t ∧ RaisesQuietly { cause := .misalignedPC, value := s.pc } s t) ∧
    (s.pc.toNat % 4 = 0 → s.launch.code.length ≤ (s.pc - s.launch.codeBase).toNat / 4 →
      ∃ t, step s = .next t ∧ RaisesQuietly { cause := .fetchOutOfRange, value := s.pc } s t)

/-- R58, R148 (decision D4): fetching a word that matches no row raises IllegalInstruction(word) at that cycle. -/
def Obligations.IllegalWordRaisesWhenFetched : Prop :=
  ∀ (s : State) (w : InsnWord), s.status = .running → s.pc.toNat % 4 = 0 →
    s.launch.code[(s.pc - s.launch.codeBase).toNat / 4]? = some w →
    (∀ op : Opcode, w &&& op.mask ≠ op.pattern) →
    ∃ t, step s = .next t ∧ RaisesQuietly { cause := .illegalInstruction, value := w.setWidth 64 } s t

/-- R70: a Running core always has its one step; a Halted or Faulted core has none. That a fatal condition is itself a
next state is the model's reading (log 6, log 11). -/
def Obligations.CoreStepsExactlyWhileRunning : Prop :=
  ∀ s : State,
    (s.status = .running → ∃ t, step s = .next t) ∧
    (s.status ≠ .running → ∀ t, step s ≠ .next t)

/-- What withFetchWord promises of every state: the next step runs the placed word; a Running state with an aligned pc
keeps everything but the code store and its base. The placing is the model's own (log 5). -/
def Obligations.PlacedWordIsRunNext : Prop :=
  (∀ (s : State) (w : InsnWord) (i : Instr), decodeWord w = some i →
    step (s.withFetchWord 32 w.toNat) = exec i (s.withFetchWord 32 w.toNat)) ∧
  ∀ (s : State) (w : InsnWord), s.status = .running → s.pc.toNat % 4 = 0 →
    ∃ base code, s.withFetchWord 32 w.toNat = { s with launch := { s.launch with codeBase := base, code := code } }

/-! ### Registers, pc and memory -/

/-- R11: register 0 reads as zero in every state, a write to it changes nothing at all, and every other register holds
what is written to it while the rest keep their values. -/
def Obligations.RegisterZeroIsHardWired : Prop :=
  (∀ s : State, s.readReg 0#5 = 0#64) ∧ (∀ (s : State) (v : Word), s.writeReg 0#5 v = s) ∧
  ∀ (s : State) (r q : RegId) (v : Word), r ≠ 0#5 →
    (s.writeReg r v).readReg q = if q = r then v else s.readReg q

/-- R16: AdvancePc adds 4 modulo 2^64, changes nothing else, wraps at the top, and keeps 4-byte alignment. -/
def Obligations.AdvancePcWrapsAndStaysAligned : Prop :=
  (∀ s : State, s.advancePc = { s with pc := s.pc + 4#64 } ∧ s.advancePc.pc.toNat = (s.pc.toNat + 4) % 2 ^ 64) ∧
  (∀ s : State, s.pc = 0xFFFFFFFFFFFFFFFC → s.advancePc.pc = 0) ∧
  ∀ s : State, s.pc.toNat % 4 = 0 → s.advancePc.pc.toNat % 4 = 0

/-- R17 (where the test is made: decision D9): JumpPc at both outcomes. -/
def Obligations.JumpPcNeedsAlignedTarget : Prop :=
  ∀ (s : State) (t : Word),
    (t.toNat % 4 = 0 → s.jumpPc t = .ok { s with pc := t }) ∧
    (t.toNat % 4 ≠ 0 → s.jumpPc t = .error { cause := .misalignedPC, value := t })

/-- R32, R36 (a misaligned address is fatal: decision D7, log 10): MemRead tests alignment, then range, and else
answers the eight bytes, least significant first. -/
def Obligations.MemReadTestsThenReadsLittleEndian : Prop :=
  ∀ (s : State) (addr : Word),
    (addr.toNat % 8 ≠ 0 → s.memRead addr = .error { cause := .misalignedData, value := addr }) ∧
    (addr.toNat % 8 = 0 → s.launch.memBytes ≤ addr.toNat →
      s.memRead addr = .error { cause := .memOutOfRange, value := addr }) ∧
    (addr.toNat % 8 = 0 → addr.toNat < s.launch.memBytes →
      ∃ v, s.memRead addr = .ok v ∧ ∀ j < 8, v.extractLsb' (8 * j) 8 = s.mem.readByte (addr.toNat + j))

/-- R33 (decision D7, log 10): MemWrite tests alignment, then range, and else replaces the one word: it reads back, no
other byte changes, and nothing but memory changes. -/
def Obligations.MemWriteReplacesOneWord : Prop :=
  ∀ (s : State) (addr v : Word),
    (addr.toNat % 8 ≠ 0 → s.memWrite addr v = .error { cause := .misalignedData, value := addr }) ∧
    (addr.toNat % 8 = 0 → s.launch.memBytes ≤ addr.toNat →
      s.memWrite addr v = .error { cause := .memOutOfRange, value := addr }) ∧
    (addr.toNat % 8 = 0 → addr.toNat < s.launch.memBytes →
      ∃ m, s.memWrite addr v = .ok { s with mem := m } ∧
        ({ s with mem := m } : State).memRead addr = .ok v ∧
        SameMemOutside addr.toNat s { s with mem := m })

/-- R43, R96, R97: a load returns the value of the store just before it to the same address, and what it returned before
from every other aligned address. -/
def Obligations.LoadSeesTheLastStore : Prop :=
  ∀ (s t : State) (rs1 rs2 rd rb : RegId) (imm immB : Word),
    exec (.sd rs1 rs2 imm) s = .next t → t.status = .running → rd ≠ 0#5 →
    (s.readReg rb + immB).toNat % 8 = 0 → (s.readReg rb + immB).toNat < s.launch.memBytes →
    ∃ u, exec (.ld rd rb immB) t = .next u ∧
      (s.readReg rb + immB = s.readReg rs1 + imm → u.readReg rd = s.readReg rs2) ∧
      (s.readReg rb + immB ≠ s.readReg rs1 + imm → s.memRead (s.readReg rb + immB) = .ok (u.readReg rd))

/-! ### The instructions. Each statement says the words that are the instruction (its first clause: the spec's own
decisions D2 and D3, log 9, not its source), where it completes and with what whole effect, and where it raises (the
names and recorded values of the causes: decision D8). -/

/-- R80, also for a field handed over zero-extended (C7). -/
def Obligations.LuiWritesUpperImmediate : Prop :=
  (∀ w : InsnWord, w &&& 0x0000007F = 0x00000037 →
    decodeWord w = some (.lui (w.extractLsb' 7 5) ((w.extractLsb' 12 20).signExtend 64))) ∧
  (∀ (rd : RegId) (imm : Word) (s : State), ∃ t, exec (.lui rd imm) s = .next t ∧
    WritesRegAndAdvances rd (((imm <<< 12).setWidth 32).signExtend 64) s t) ∧
  (∀ imm imm' : Word, imm.extractLsb' 0 20 = imm'.extractLsb' 0 20 →
    ((imm <<< 12).setWidth 32).signExtend 64 = ((imm' <<< 12).setWidth 32).signExtend 64) ∧
  ∀ imm : Word, immFits20 imm → ((imm <<< 12).setWidth 32).signExtend 64 = imm <<< 12

/-- R85; the target is tested at the jump (decision D9). After a misaligned target nothing is said of rd or pc (U3). -/
def Obligations.JalLinksAndJumps : Prop :=
  (∀ w : InsnWord, w &&& 0x0000007F = 0x0000006F →
    decodeWord w = some (.jal (w.extractLsb' 7 5)
      ((w.extractLsb' 31 1 ++ w.extractLsb' 12 8 ++ w.extractLsb' 20 1 ++ w.extractLsb' 21 10 ++ 0#1).signExtend 64))) ∧
  ∀ (rd : RegId) (imm : Word) (s : State),
    ((s.pc + imm).toNat % 4 = 0 → ∃ t, exec (.jal rd imm) s = .next t ∧
      t.readReg rd = (if rd = 0#5 then 0#64 else s.pc + 4#64) ∧ SameRegsBut rd s t ∧ t.pc = s.pc + imm ∧
      SameMem s t ∧ SameControl s t) ∧
    ((s.pc + imm).toNat % 4 ≠ 0 → ∃ t, exec (.jal rd imm) s = .next t ∧
      RaisesQuietly { cause := .misalignedPC, value := s.pc + imm } s t)

/-- R86: the target from the old x[rs1], used exactly as computed, tested at the jump (decision D9). -/
def Obligations.JalrLinksAndJumps : Prop :=
  (∀ w : InsnWord, w &&& 0x0000707F = 0x00000067 →
    decodeWord w = some (.jalr (w.extractLsb' 7 5) (w.extractLsb' 15 5) ((w.extractLsb' 20 12).signExtend 64))) ∧
  ∀ (rd rs1 : RegId) (imm : Word) (s : State),
    ((s.readReg rs1 + imm).toNat % 4 = 0 → ∃ t, exec (.jalr rd rs1 imm) s = .next t ∧
      t.readReg rd = (if rd = 0#5 then 0#64 else s.pc + 4#64) ∧ SameRegsBut rd s t ∧ t.pc = s.readReg rs1 + imm ∧
      SameMem s t ∧ SameControl s t) ∧
    ((s.readReg rs1 + imm).toNat % 4 ≠ 0 → ∃ t, exec (.jalr rd rs1 imm) s = .next t ∧
      RaisesQuietly { cause := .misalignedPC, value := s.readReg rs1 + imm } s t)

/-- R87: taken and not taken; a misaligned offset matters only when taken (decision D9). -/
def Obligations.BeqBranchesOnEquality : Prop :=
  (∀ w : InsnWord, w &&& 0x0000707F = 0x00000063 →
    decodeWord w = some (.beq (w.extractLsb' 15 5) (w.extractLsb' 20 5)
      ((w.extractLsb' 31 1 ++ w.extractLsb' 7 1 ++ w.extractLsb' 25 6 ++ w.extractLsb' 8 4 ++ 0#1).signExtend 64))) ∧
  ∀ (rs1 rs2 : RegId) (imm : Word) (s : State),
    (s.readReg rs1 = s.readReg rs2 → (s.pc + imm).toNat % 4 = 0 → ∃ t, exec (.beq rs1 rs2 imm) s = .next t ∧
      t.pc = s.pc + imm ∧ SameRegs s t ∧ SameMem s t ∧ SameControl s t) ∧
    (s.readReg rs1 ≠ s.readReg rs2 → ∃ t, exec (.beq rs1 rs2 imm) s = .next t ∧
      t.pc = s.pc + 4#64 ∧ SameRegs s t ∧ SameMem s t ∧ SameControl s t) ∧
    (s.readReg rs1 = s.readReg rs2 → (s.pc + imm).toNat % 4 ≠ 0 → ∃ t, exec (.beq rs1 rs2 imm) s = .next t ∧
      RaisesQuietly { cause := .misalignedPC, value := s.pc + imm } s t)

/-- R96, R95: the eight bytes at the effective address, little-endian; a misaligned address is fatal (decision D7), and
the raises hold whatever rd is (decision D20). -/
def Obligations.LdLoadsTheWord : Prop :=
  (∀ w : InsnWord, w &&& 0x0000707F = 0x00003003 →
    decodeWord w = some (.ld (w.extractLsb' 7 5) (w.extractLsb' 15 5) ((w.extractLsb' 20 12).signExtend 64))) ∧
  ∀ (rd rs1 : RegId) (imm : Word) (s : State),
    ((s.readReg rs1 + imm).toNat % 8 = 0 → (s.readReg rs1 + imm).toNat < s.launch.memBytes →
      ∃ v t, exec (.ld rd rs1 imm) s = .next t ∧
        (∀ j < 8, v.extractLsb' (8 * j) 8 = s.mem.readByte ((s.readReg rs1 + imm).toNat + j)) ∧
        WritesRegAndAdvances rd v s t) ∧
    ((s.readReg rs1 + imm).toNat % 8 ≠ 0 → ∃ t, exec (.ld rd rs1 imm) s = .next t ∧
      RaisesQuietly { cause := .misalignedData, value := s.readReg rs1 + imm } s t) ∧
    ((s.readReg rs1 + imm).toNat % 8 = 0 → s.launch.memBytes ≤ (s.readReg rs1 + imm).toNat →
      ∃ t, exec (.ld rd rs1 imm) s = .next t ∧
        RaisesQuietly { cause := .memOutOfRange, value := s.readReg rs1 + imm } s t)

/-- R97, R95 (a misaligned address: decision D7): the eight bytes at the effective address become x[rs2]'s, every other
byte and every register as before. After a raise nothing is said of memory (R156, U3). -/
def Obligations.SdStoresTheWord : Prop :=
  (∀ w : InsnWord, w &&& 0x0000707F = 0x00003023 →
    decodeWord w = some (.sd (w.extractLsb' 15 5) (w.extractLsb' 20 5)
      ((w.extractLsb' 25 7 ++ w.extractLsb' 7 5).signExtend 64))) ∧
  ∀ (rs1 rs2 : RegId) (imm : Word) (s : State),
    ((s.readReg rs1 + imm).toNat % 8 = 0 → (s.readReg rs1 + imm).toNat < s.launch.memBytes →
      ∃ t, exec (.sd rs1 rs2 imm) s = .next t ∧
        (∀ j < 8, t.mem.readByte ((s.readReg rs1 + imm).toNat + j) = (s.readReg rs2).extractLsb' (8 * j) 8) ∧
        SameMemOutside (s.readReg rs1 + imm).toNat s t ∧
        SameRegs s t ∧ t.pc = s.pc + 4#64 ∧ SameControl s t) ∧
    ((s.readReg rs1 + imm).toNat % 8 ≠ 0 → ∃ t, exec (.sd rs1 rs2 imm) s = .next t ∧
      RaisesQuietly { cause := .misalignedData, value := s.readReg rs1 + imm } s t) ∧
    ((s.readReg rs1 + imm).toNat % 8 = 0 → s.launch.memBytes ≤ (s.readReg rs1 + imm).toNat →
      ∃ t, exec (.sd rs1 rs2 imm) s = .next t ∧
        RaisesQuietly { cause := .memOutOfRange, value := s.readReg rs1 + imm } s t)

/-- R106. -/
def Obligations.AddiWritesWrappedSum : Prop :=
  (∀ w : InsnWord, w &&& 0x0000707F = 0x00000013 →
    decodeWord w = some (.addi (w.extractLsb' 7 5) (w.extractLsb' 15 5) ((w.extractLsb' 20 12).signExtend 64))) ∧
  ∀ (rd rs1 : RegId) (imm : Word) (s : State), ∃ t, exec (.addi rd rs1 imm) s = .next t ∧
    WritesRegAndAdvances rd (BitVec.ofNat 64 ((s.readReg rs1).toNat + imm.toNat)) s t

/-- R107. -/
def Obligations.AddWritesWrappedSum : Prop :=
  (∀ w : InsnWord, w &&& 0xFE00707F = 0x00000033 →
    decodeWord w = some (.add (w.extractLsb' 7 5) (w.extractLsb' 15 5) (w.extractLsb' 20 5))) ∧
  ∀ (rd rs1 rs2 : RegId) (s : State), ∃ t, exec (.add rd rs1 rs2) s = .next t ∧
    WritesRegAndAdvances rd (BitVec.ofNat 64 ((s.readReg rs1).toNat + (s.readReg rs2).toNat)) s t

/-- R108: rs1 minus rs2, in that order. -/
def Obligations.SubWritesWrappedDifference : Prop :=
  (∀ w : InsnWord, w &&& 0xFE00707F = 0x40000033 →
    decodeWord w = some (.sub (w.extractLsb' 7 5) (w.extractLsb' 15 5) (w.extractLsb' 20 5))) ∧
  ∀ (rd rs1 rs2 : RegId) (s : State), ∃ t, exec (.sub rd rs1 rs2) s = .next t ∧
    WritesRegAndAdvances rd (BitVec.ofInt 64 ((s.readReg rs1).toNat - (s.readReg rs2).toNat : Int)) s t

/-- R109. -/
def Obligations.SltuComparesUnsigned : Prop :=
  (∀ w : InsnWord, w &&& 0xFE00707F = 0x00003033 →
    decodeWord w = some (.sltu (w.extractLsb' 7 5) (w.extractLsb' 15 5) (w.extractLsb' 20 5))) ∧
  ∀ (rd rs1 rs2 : RegId) (s : State), ∃ t, exec (.sltu rd rs1 rs2) s = .next t ∧
    WritesRegAndAdvances rd (if (s.readReg rs1).toNat < (s.readReg rs2).toNat then 1#64 else 0#64) s t

/-- R116: the low 64 bits of the exact product. -/
def Obligations.MulWritesLowProduct : Prop :=
  (∀ w : InsnWord, w &&& 0xFE00707F = 0x02000033 →
    decodeWord w = some (.mul (w.extractLsb' 7 5) (w.extractLsb' 15 5) (w.extractLsb' 20 5))) ∧
  ∀ (rd rs1 rs2 : RegId) (s : State), ∃ t, exec (.mul rd rs1 rs2) s = .next t ∧
    WritesRegAndAdvances rd (BitVec.ofNat 64 ((s.readReg rs1).toNat * (s.readReg rs2).toNat)) s t

/-- R117: floor of the unsigned quotient; a zero divisor raises whatever rd is (decision D20). -/
def Obligations.DivuWritesQuotient : Prop :=
  (∀ w : InsnWord, w &&& 0xFE00707F = 0x02005033 →
    decodeWord w = some (.divu (w.extractLsb' 7 5) (w.extractLsb' 15 5) (w.extractLsb' 20 5))) ∧
  ∀ (rd rs1 rs2 : RegId) (s : State),
    (s.readReg rs2 ≠ 0#64 → ∃ t, exec (.divu rd rs1 rs2) s = .next t ∧
      WritesRegAndAdvances rd (s.readReg rs1 / s.readReg rs2) s t) ∧
    (s.readReg rs2 = 0#64 → ∃ t, exec (.divu rd rs1 rs2) s = .next t ∧
      RaisesQuietly { cause := .divideByZero, value := s.pc } s t)

/-- R118; a zero divisor raises whatever rd is (decision D20). -/
def Obligations.RemuWritesRemainder : Prop :=
  (∀ w : InsnWord, w &&& 0xFE00707F = 0x02007033 →
    decodeWord w = some (.remu (w.extractLsb' 7 5) (w.extractLsb' 15 5) (w.extractLsb' 20 5))) ∧
  ∀ (rd rs1 rs2 : RegId) (s : State),
    (s.readReg rs2 ≠ 0#64 → ∃ t, exec (.remu rd rs1 rs2) s = .next t ∧
      WritesRegAndAdvances rd (s.readReg rs1 - s.readReg rs1 / s.readReg rs2 * s.readReg rs2) s t) ∧
    (s.readReg rs2 = 0#64 → ∃ t, exec (.remu rd rs1 rs2) s = .next t ∧
      RaisesQuietly { cause := .divideByZero, value := s.pc } s t)

/-- The source's property E1 (R105, R108): Add then Sub with the same operand is the identity. -/
def Obligations.SubUndoesAdd : Prop :=
  ∀ (s : State) (rd ra rb : RegId), rd ≠ 0#5 → rd ≠ rb →
    ∃ t u, exec (.add rd ra rb) s = .next t ∧ exec (.sub rd rd rb) t = .next u ∧
      u.readReg rd = s.readReg ra ∧ SameRegsBut rd s u

/-- The source's property E2 (R115): `q*b + r = a` as integers and `r < b`, for every nonzero divisor. -/
def Obligations.QuotientAndRemainderRebuildDividend : Prop :=
  ∀ (s : State) (rq rr ra rb : RegId), rq ≠ 0#5 → rr ≠ 0#5 → rq ≠ rr → rq ≠ ra → rq ≠ rb → s.readReg rb ≠ 0#64 →
    ∃ t u, exec (.divu rq ra rb) s = .next t ∧ exec (.remu rr ra rb) t = .next u ∧
      (u.readReg rq).toNat * (s.readReg rb).toNat + (u.readReg rr).toNat = (s.readReg ra).toNat ∧
      (u.readReg rr).toNat < (s.readReg rb).toNat

/-! ### Ecall -/

/-- R127 with R125: Exit latches all of a0 (decision D13), halts, and the pc still advances (C5). -/
def Obligations.ExitHaltsWithA0 : Prop :=
  ∀ s : State, s.a7 = s.launch.params.sysExit → ∃ t, exec .ecall s = .next t ∧
    t.status = .halted ∧ t.exitCode = s.a0 ∧ t.pc = s.pc + 4#64 ∧ SameRegs s t ∧ SameMem s t ∧
    t.launch = s.launch ∧ t.programBreak = s.programBreak ∧ t.faultCause = s.faultCause ∧ t.stdout = s.stdout

/-- R128, R47 (the chunk reads: decision D12): with every chunk readable, Write appends exactly the buffer's len bytes
in address order and returns len; for len = 0 no chunk is read, so any buffer will do. -/
def Obligations.WriteAppendsTheBuffer : Prop :=
  ∀ s : State, Params.wf s.launch.params = true → s.a7 = s.launch.params.sysWrite → s.a0 = 1#64 →
    (∀ i, 8 * i < s.a2.toNat → ChunkReadable s i) →
    ∃ t, exec .ecall s = .next t ∧
      (∃ bs, t.stdout = s.stdout ++ bs ∧ bs.length = s.a2.toNat ∧
        ∀ k < s.a2.toNat, bs[k]? = some (bufferByte s k)) ∧
      t.a0 = s.a2 ∧ SameRegsBut s.launch.params.regA0 s t ∧ t.pc = s.pc + 4#64 ∧ SameMem s t ∧
      t.launch = s.launch ∧ t.programBreak = s.programBreak ∧ t.status = s.status ∧ t.exitCode = s.exitCode ∧
      t.faultCause = s.faultCause

/-- R128, R154, R159, U4 (decisions D12, D19, D23): the descriptor is tested first; else the first chunk that cannot
be read raises, alignment before range, and what was emitted is some number of the whole chunks before it. -/
def Obligations.WriteRaisesInOrder : Prop :=
  ∀ s : State, Params.wf s.launch.params = true → s.a7 = s.launch.params.sysWrite →
    (s.a0 ≠ 1#64 → ∃ t, exec .ecall s = .next t ∧
      RaisesQuietly { cause := .unsupportedFd, value := s.a0 } s t) ∧
    (∀ n, s.a0 = 1#64 → 8 * n < s.a2.toNat → (∀ i < n, ChunkReadable s i) → ¬ ChunkReadable s n →
      ∃ t, exec .ecall s = .next t ∧
        RaisesAt (if (chunkAddr s n).toNat % 8 ≠ 0 then { cause := .misalignedData, value := chunkAddr s n }
          else { cause := .memOutOfRange, value := chunkAddr s n }) s t ∧
        ∃ m ≤ n, ∃ bs, t.stdout = s.stdout ++ bs ∧ bs.length = 8 * m ∧
          ∀ k < 8 * m, bs[k]? = some (bufferByte s k))

/-- R129, R155 (alignment first: decision D14): an aligned request inside [break, sp) becomes the break, any other
aligned request is ignored, a0 receives the break, and a misaligned request raises. -/
def Obligations.BrkMovesBreakWithinBounds : Prop :=
  ∀ s : State, Params.wf s.launch.params = true → s.a7 = s.launch.params.sysBrk →
    (s.a0.toNat % 8 = 0 → ∃ t, exec .ecall s = .next t ∧
      (s.programBreak.toNat ≤ s.a0.toNat ∧ s.a0.toNat < s.sp.toNat → t.programBreak = s.a0) ∧
      (¬ (s.programBreak.toNat ≤ s.a0.toNat ∧ s.a0.toNat < s.sp.toNat) → t.programBreak = s.programBreak) ∧
      t.a0 = t.programBreak ∧ SameRegsBut s.launch.params.regA0 s t ∧ t.pc = s.pc + 4#64 ∧ SameMem s t ∧
      t.launch = s.launch ∧ t.status = s.status ∧ t.exitCode = s.exitCode ∧ t.faultCause = s.faultCause ∧
      t.stdout = s.stdout) ∧
    (s.a0.toNat % 8 ≠ 0 → ∃ t, exec .ecall s = .next t ∧
      RaisesQuietly { cause := .misalignedBreak, value := s.a0 } s t)

/-- R130, R131: Read and Openat raise UnsupportedSyscall(n). -/
def Obligations.ReadAndOpenatAreUnsupported : Prop :=
  ∀ s : State, Params.wf s.launch.params = true →
    (s.a7 = s.launch.params.sysRead ∨ s.a7 = s.launch.params.sysOpenat) →
    ∃ t, exec .ecall s = .next t ∧ RaisesQuietly { cause := .unsupportedSyscall, value := s.a7 } s t

/-- R132: any other call number raises UnknownSyscall(n), the whole register compared. -/
def Obligations.OtherCallNumbersAreUnknown : Prop :=
  ∀ s : State, s.a7 ≠ s.launch.params.sysExit → s.a7 ≠ s.launch.params.sysWrite → s.a7 ≠ s.launch.params.sysBrk →
    s.a7 ≠ s.launch.params.sysRead → s.a7 ≠ s.launch.params.sysOpenat →
    ∃ t, exec .ecall s = .next t ∧ RaisesQuietly { cause := .unknownSyscall, value := s.a7 } s t

/-- R126: a call that completes keeps every register but a0, a0 too across Exit, and all of memory; only Brk moves the
break and only Write writes output. -/
def Obligations.CallsKeepTheRest : Prop :=
  ∀ s t : State, exec .ecall s = .next t → t.status ≠ .faulted →
    SameRegsBut s.launch.params.regA0 s t ∧ SameMem s t ∧
    (s.a7 = s.launch.params.sysExit → SameRegs s t) ∧
    (s.a7 ≠ s.launch.params.sysBrk → t.programBreak = s.programBreak) ∧
    (s.a7 ≠ s.launch.params.sysWrite → t.stdout = s.stdout)

/-! ### Fatal conditions -/

/-- R156, R157 (decision D8): the entry to a fatal condition, and that no step follows it. -/
def Obligations.RaiseFaultsForGood : Prop :=
  ∀ (s : State) (f : FatalCondition),
    RaisesQuietly f s (s.raise f) ∧ step (s.raise f) = .fault .coreFaulted

/-- R145 (the spec's own numbers, decision D8): the ten causes and their codes, no two alike. -/
def Obligations.FatalCodesAreOneToTen : Prop :=
  ([.misalignedPC, .fetchOutOfRange, .illegalInstruction, .misalignedData, .memOutOfRange, .divideByZero,
    .unsupportedSyscall, .unknownSyscall, .unsupportedFd, .misalignedBreak] : List FatalCause).map FatalCause.code =
    [1, 2, 3, 4, 5, 6, 7, 8, 9, 10] ∧
  ∀ c d : FatalCause, c.code = d.code → c = d

/-! ### Rules of the whole machine -/

/-- R13, R73: an instruction that completes changes no register outside its destinations. -/
def Obligations.OnlyDestinationsChange : Prop :=
  ∀ (i : Instr) (s t : State), exec i s = .next t → t.status ≠ .faulted →
    ∀ r, r ∉ destRegs i s → t.readReg r = s.readReg r

/-- R13: a register that an instruction neither reads nor writes has no part in what it does: with another value in it the
instruction meets the same fatal condition, or completes to the same state but for that register (R156, U3, U4). -/
def Obligations.OnlySourcesAreRead : Prop :=
  ∀ (i : Instr) (s : State) (r : RegId) (v : Word), r ∉ sourceRegs i s → r ∉ destRegs i s →
    ∃ t u, exec i s = .next t ∧ exec i (s.writeReg r v) = .next u ∧
      u.status = t.status ∧ u.faultCause = t.faultCause ∧ u.exitCode = t.exitCode ∧ u.launch = t.launch ∧
      (t.status ≠ .faulted → u = t.writeReg r v)

/-- R15: an instruction that completes changes the pc exactly once, to pc + 4 or to its target. The new pc is a multiple
of 4 when the old one was (R14, R16, R17): the jump itself raises otherwise, a taken Beq included (decision D9, log 10). -/
def Obligations.PcAdvancesOrIsSet : Prop :=
  ∀ (i : Instr) (s t : State), exec i s = .next t → t.status ≠ .faulted →
    t.pc = nextPc i s ∧ (s.pc.toNat % 4 = 0 → t.pc.toNat % 4 = 0)

/-- R20, R75: the status becomes Halted only by an Ecall whose call number is Exit. -/
def Obligations.OnlyExitHalts : Prop :=
  ∀ s t : State, step s = .next t → t.status = .halted →
    fetch s.launch s.pc = .ok .ecall ∧ s.a7 = s.launch.params.sysExit ∧ t.exitCode = s.a0

/-- R5, R40, R46: no step changes the launch parameters or the code store, so no store is ever seen by a fetch. -/
def Obligations.LaunchAndCodeStoreAreConstant : Prop :=
  ∀ s t : State, step s = .next t → t.launch = s.launch ∧ ∀ pc, fetch t.launch pc = fetch s.launch pc

/-- R38, R23: a byte of data memory changes only by an Sd whose word it lies in. -/
def Obligations.OnlySdChangesMemory : Prop :=
  ∀ (s t : State) (a : Nat), step s = .next t → t.status ≠ .faulted → t.mem.readByte a ≠ s.mem.readByte a →
    ∃ rs1 rs2 imm, fetch s.launch s.pc = .ok (.sd rs1 rs2 imm) ∧
      (s.readReg rs1 + imm).toNat ≤ a ∧ a < (s.readReg rs1 + imm).toNat + 8

/-- R24, R47: output is only ever appended to, and only by the Write call. -/
def Obligations.OnlyWriteExtendsStdout : Prop :=
  ∀ s t : State, step s = .next t →
    (∃ bs, t.stdout = s.stdout ++ bs) ∧
    (t.stdout ≠ s.stdout → fetch s.launch s.pc = .ok .ecall ∧ s.a7 = s.launch.params.sysWrite)

/-- R19, R129: the break moves only by Brk, only upward, and only to the aligned request below sp. -/
def Obligations.OnlyBrkMovesBreakUpward : Prop :=
  ∀ s t : State, step s = .next t → t.status ≠ .faulted →
    s.programBreak.toNat ≤ t.programBreak.toNat ∧
    (t.programBreak ≠ s.programBreak →
      fetch s.launch s.pc = .ok .ecall ∧ s.a7 = s.launch.params.sysBrk ∧ t.programBreak = s.a0 ∧
      t.programBreak.toNat % 8 = 0 ∧ t.programBreak.toNat < s.sp.toNat)

/-- R156, U3, U4: the free values of a Faulted state have no part in anything else: with another counter value an
instruction meets the same fatal condition, or completes to the same state but for the counter. -/
def Obligations.FreeValuesReachNothingElse : Prop :=
  ∀ (i : Instr) (s : State) (n : Nat), ∃ t u,
    exec i s = .next t ∧ exec i { s with draws := n } = .next u ∧
    u.status = t.status ∧ u.faultCause = t.faultCause ∧ u.exitCode = t.exitCode ∧ u.launch = t.launch ∧
    (t.status ≠ .faulted → u = { t with draws := n })

/-- R76 (decision D24, log 15): the host's view, status by status, and that it tells states apart by the status, the
output, the exit code when Halted and the cause when Faulted, and by nothing else. -/
def Obligations.HostSeesOnlyStatusAndOutput : Prop :=
  (∀ s : State,
    (s.status = .running → hostView s = .running s.stdout) ∧
    (s.status = .halted → hostView s = .halted s.exitCode s.stdout) ∧
    (s.status = .faulted → hostView s = .faulted s.faultCause s.stdout)) ∧
  ∀ s t : State, hostView t = hostView s ↔
    t.status = s.status ∧ t.stdout = s.stdout ∧ (s.status = .halted → t.exitCode = s.exitCode) ∧
    (s.status = .faulted → t.faultCause = s.faultCause)

/-! ### Invariant and reset -/

/-- Every step keeps the machine's invariant (R11, R14, R19, R31, and the memory's canonical form). -/
def Obligations.StepKeepsInvariant : Prop :=
  ∀ s t : State, s.Inv → step s = .next t → t.Inv

/-- The reset state meets the invariant. -/
def Obligations.ResetMeetsInvariant : Prop := State.reset.Inv

/-- State.reset is what the reset sequence makes of Launch.default, the launch the model chose (log 5), with the values
95_test_vectors.md section 2.8 lists for it (R171 to R174, R182, R26). -/
def Obligations.ResetIsTheBootedDefaultLaunch : Prop :=
  boot Launch.default = .next State.reset ∧
  State.reset.pc = 0x10000 ∧ State.reset.sp = 0xFE8 ∧ State.reset.programBreak = 0 ∧
  State.reset.status = .running ∧ State.reset.stdout = [] ∧
  (∀ r, r ≠ 2 → State.reset.readReg r = 0) ∧ ∀ a, State.reset.mem.readByte a = 0

/-- Every well-formed launch boots to a Running state that meets the invariant, with break at most sp (R183, R170). -/
def Obligations.WellFormedLaunchBoots : Prop :=
  ∀ l : Launch, Launch.wf l = true → ∃ s, boot l = .next s ∧ s.Inv ∧ s.status = .running ∧ s.launch = l ∧
    s.programBreak.toNat ≤ s.sp.toNat

/-- R172 to R174, R182, R184, R26 (RESET_FILL zero: decision D11, log 3; the break of an exact multiple: D25): the
registers and control state of the first fetch. -/
def Obligations.BootSetsControlState : Prop :=
  ∀ (l : Launch) (s : State), Launch.wf l = true → boot l = .next s →
    s.sp.toNat = initialSp l ∧ s.pc = l.codeBase ∧
    s.programBreak.toNat = (l.dataEnd + 4095) / 4096 * 4096 ∧
    s.status = .running ∧ s.stdout = [] ∧ ∀ r, r ≠ l.params.regSp → s.readReg r = 0

/-- R175, R177 to R181, R184 (a string of full chunks is padded all the same: decision D15), R26 (zero fill: D11,
log 3): data memory at the first fetch, in closed form. -/
def Obligations.BootLaysOutMemory : Prop :=
  ∀ (l : Launch) (s : State), Launch.wf l = true → boot l = .next s →
    (∀ (k : Nat) (d : Word), l.data[k]? = some d → s.mem.readWord (l.dataBase.toNat + 8 * k) = d) ∧
    s.mem.readWord (initialSp l) = BitVec.ofNat 64 l.argv.length ∧
    (∀ i < l.argv.length, s.mem.readWord (initialSp l + 8 * (1 + i)) = BitVec.ofNat 64 (argPointer l i)) ∧
    s.mem.readWord (initialSp l + 8 * (1 + l.argv.length)) = 0 ∧
    s.mem.readWord (initialSp l + 8 * (2 + l.argv.length)) = 0 ∧
    (∀ (i : Nat) (arg : List Byte), l.argv[i]? = some arg → ∀ k < 8 * stringWords arg,
      s.mem.readByte (argPointer l i + k) = arg.getD k 0) ∧
    ∀ a, (a < l.dataBase.toNat ∨ l.dataEnd ≤ a) → a < initialSp l → s.mem.readByte a = 0

/-- U7, R183, R6 (decision D16, log 8): a launch is refused exactly when one of R6's constraints or of R183's premises
(a), (b), (c), (e), (f) fails. Premise (d) is not imposed on the 32-bit words of the code store (R58, log 8). -/
def Obligations.IllFormedLaunchIsRefused : Prop :=
  ∀ l : Launch, boot l = .refused .illFormedLaunch ↔
    ¬ ([l.params.regSp, l.params.regA0, l.params.regA1, l.params.regA2, l.params.regCallNo].Nodup ∧
      (0 : RegId) ∉ [l.params.regSp, l.params.regA0, l.params.regA1, l.params.regA2, l.params.regCallNo] ∧
      [l.params.sysExit, l.params.sysRead, l.params.sysWrite, l.params.sysOpenat, l.params.sysBrk].Nodup ∧
      l.memBytes % 8 = 0 ∧ l.memBytes < 2 ^ 64 ∧
      l.codeBase.toNat % 4 = 0 ∧ l.codeBase.toNat + 4 * l.code.length ≤ 2 ^ 64 ∧
      l.dataBase.toNat % 8 = 0 ∧ l.dataBase.toNat + 8 * l.data.length ≤ l.memBytes ∧
      8 * ((l.argv.map (fun arg => arg.length / 8 + 1)).sum + l.argv.length + 3) ≤ l.memBytes ∧
      (l.dataBase.toNat + 8 * l.data.length + 4095) / 4096 * 4096 ≤
        l.memBytes - 8 * ((l.argv.map (fun arg => arg.length / 8 + 1)).sum + l.argv.length + 3))

/-- R173, R182: the reset sequence leaves a Running core with its pc at CODE_BASE, and the first cycle runs the first
record of the code segment. -/
def Obligations.FirstCycleRunsFirstRecord : Prop :=
  ∀ (l : Launch) (w : InsnWord) (i : Instr), Launch.wf l = true → l.code[0]? = some w → decodeWord w = some i →
    ∃ s, boot l = .next s ∧ s.status = .running ∧ s.pc = l.codeBase ∧ step s = exec i s
end

