-- ==== Sys2Proof/Laws/Memory.lean ====
section
/-! SUPPORT. The laws of data memory: a read after a write, and that every operation keeps the canonical form. -/

namespace Sys2Proof.Machine

theorem readByte_insertByte (m : Memory) (a b : Nat) (v : Byte) :
    (m.insertByte a v).readByte b = if b = a then v else m.readByte b := by
  induction m with
  | nil =>
    by_cases h : b = a
    · simp [Memory.insertByte, Memory.readByte, h]
    · simp [Memory.insertByte, Memory.readByte, h, Ne.symm h]
  | cons c rest ih =>
    obtain ⟨k, u⟩ := c
    unfold Memory.insertByte
    by_cases hlt : a < k
    · by_cases h : b = a
      · simp [hlt, Memory.readByte, h]
      · simp [hlt, Memory.readByte, h, Ne.symm h]
    · by_cases he : a = k
      · by_cases h : b = a
        · subst he; subst h; simp [Memory.readByte]
        · have hk : ¬ k = b := fun e => h (by omega)
          simp [he, Memory.readByte, hk, show ¬ b = k from fun e => hk e.symm]
      · simp only [hlt, he, if_false, Memory.readByte, ih]
        by_cases h : b = a
        · have hk : ¬ k = b := fun e => he (by omega)
          simp [h, show ¬ k = a from fun e => he e.symm]
        · simp [h]

theorem readByte_filter (m : Memory) (a b : Nat) :
    Memory.readByte (m.filter (fun c => c.1 != a)) b = if b = a then Config.resetFill else m.readByte b := by
  induction m with
  | nil => simp [Memory.readByte]
  | cons c rest ih =>
    obtain ⟨k, u⟩ := c
    by_cases h : b = a
    · subst h
      rw [if_pos rfl] at ih ⊢
      by_cases hk : k = b
      · simpa [hk] using ih
      · simpa [hk, Memory.readByte] using ih
    · rw [if_neg h] at ih ⊢
      by_cases hk : k = a
      · simpa [hk, Memory.readByte, Ne.symm h] using ih
      · simp [hk, Memory.readByte, ih]

/-- One byte read after one byte written. -/
theorem readByte_writeByte (m : Memory) (a b : Nat) (v : Byte) :
    (m.writeByte a v).readByte b = if b = a then v else m.readByte b := by
  unfold Memory.writeByte
  split
  · rename_i h; rw [readByte_filter, h]
  · exact readByte_insertByte m a b v

/-- One byte read after bytes written. -/
theorem readByte_writeBytes (m : Memory) (a b : Nat) (bs : List Byte) :
    (m.writeBytes a bs).readByte b = if h : a ≤ b ∧ b < a + bs.length then bs[b - a]'(by omega) else m.readByte b := by
  induction bs generalizing m a with
  | nil =>
    have h : ¬ (a ≤ b ∧ b < a + ([] : List Byte).length) := by simp
    rw [dif_neg h, Memory.writeBytes]
  | cons v rest ih =>
    rw [Memory.writeBytes, ih]
    by_cases h1 : a + 1 ≤ b ∧ b < a + 1 + rest.length
    · have h2 : a ≤ b ∧ b < a + (rest.length + 1) := by omega
      simp only [h1, and_self, dite_true, List.length_cons, h2]
      have : b - a = (b - (a + 1)) + 1 := by omega
      simp [this]
    · rw [dif_neg h1, readByte_writeByte]
      by_cases h3 : b = a
      · subst h3; simp
      · have h2 : ¬ (a ≤ b ∧ b < a + (v :: rest).length) := by simp; omega
        rw [if_neg h3, dif_neg h2]

@[simp] theorem length_bytesOfWord (w : Word) : (bytesOfWord w).length = 8 := rfl

/-- Byte j of a word (20_memory.md R36). -/
theorem getElem_bytesOfWord (w : Word) (j : Nat) (h : j < 8) :
    (bytesOfWord w)[j]'(by simpa using h) = w.extractLsb' (8 * j) 8 := by
  have : j = 0 ∨ j = 1 ∨ j = 2 ∨ j = 3 ∨ j = 4 ∨ j = 5 ∨ j = 6 ∨ j = 7 := by omega
  rcases this with rfl | rfl | rfl | rfl | rfl | rfl | rfl | rfl <;> rfl

/-- One byte read after a word written. -/
theorem readByte_writeWord (m : Memory) (a b : Nat) (w : Word) :
    (m.writeWord a w).readByte b = if a ≤ b ∧ b < a + 8 then w.extractLsb' (8 * (b - a)) 8 else m.readByte b := by
  rw [Memory.writeWord, readByte_writeBytes]
  by_cases h : a ≤ b ∧ b < a + 8
  · simp [h, getElem_bytesOfWord w (b - a) (by omega)]
  · simp [h]

/-- The bytes of an assembled word. -/
theorem extract_wordOfBytes (b0 b1 b2 b3 b4 b5 b6 b7 : Byte) (j : Nat) (h : j < 8) :
    (wordOfBytes b0 b1 b2 b3 b4 b5 b6 b7).extractLsb' (8 * j) 8 =
      [b0, b1, b2, b3, b4, b5, b6, b7][j]'(by simpa using h) := by
  have : j = 0 ∨ j = 1 ∨ j = 2 ∨ j = 3 ∨ j = 4 ∨ j = 5 ∨ j = 6 ∨ j = 7 := by omega
  apply BitVec.eq_of_getLsbD_eq
  intro i hi
  change BitVec.getLsbD (w := 8) (BitVec.extractLsb' (n := 8+8+8+8+8+8+8+8) _ _
    (b7 ++ b6 ++ b5 ++ b4 ++ b3 ++ b2 ++ b1 ++ b0)) i = _
  rcases this with rfl | rfl | rfl | rfl | rfl | rfl | rfl | rfl <;>
    interval_cases i <;> simp only [BitVec.getLsbD_extractLsb', BitVec.getLsbD_append] <;> simp

/-- A word read is its eight bytes, least significant first. -/
theorem extract_readWord (m : Memory) (a j : Nat) (h : j < 8) :
    (m.readWord a).extractLsb' (8 * j) 8 = m.readByte (a + j) := by
  rw [Memory.readWord, extract_wordOfBytes _ _ _ _ _ _ _ _ j h]
  have : j = 0 ∨ j = 1 ∨ j = 2 ∨ j = 3 ∨ j = 4 ∨ j = 5 ∨ j = 6 ∨ j = 7 := by omega
  rcases this with rfl | rfl | rfl | rfl | rfl | rfl | rfl | rfl <;> rfl

/-- Two words with the same eight bytes are equal. -/
theorem word_ext {v w : Word} (h : ∀ j < 8, v.extractLsb' (8 * j) 8 = w.extractLsb' (8 * j) 8) : v = w := by
  apply BitVec.eq_of_getLsbD_eq
  intro i hi
  have hb := congrArg (fun x => x.getLsbD (i % 8)) (h (i / 8) (by omega))
  have e : 8 * (i / 8) + i % 8 = i := by omega
  have hm : i % 8 < 8 := by omega
  simpa [BitVec.getLsbD_extractLsb', hm, e] using hb

/-- The word whose bytes are those of w. -/
theorem readWord_eq (m : Memory) (a : Nat) (w : Word)
    (h : ∀ j < 8, m.readByte (a + j) = w.extractLsb' (8 * j) 8) : m.readWord a = w :=
  word_ext fun j hj => by rw [extract_readWord m a j hj, h j hj]

/-- A word read depends on its eight bytes alone. -/
theorem readWord_congr {m n : Memory} {a : Nat} (h : ∀ j < 8, n.readByte (a + j) = m.readByte (a + j)) :
    n.readWord a = m.readWord a :=
  readWord_eq n a _ fun j hj => by rw [h j hj, extract_readWord m a j hj]

@[simp] theorem readWord_writeWord_self (m : Memory) (a : Nat) (w : Word) : (m.writeWord a w).readWord a = w :=
  readWord_eq _ _ _ fun j hj => by rw [readByte_writeWord, if_pos (by omega), Nat.add_sub_cancel_left]

theorem readWord_writeWord_apart (m : Memory) {a b : Nat} (w : Word) (h : b + 8 ≤ a ∨ a + 8 ≤ b) :
    (m.writeWord a w).readWord b = m.readWord b :=
  readWord_congr fun j hj => by rw [readByte_writeWord, if_neg (by omega)]

/-! The canonical form. -/

theorem wf_iff (m : Memory) :
    m.wf = true ↔ m.Pairwise (fun c d => c.1 < d.1) ∧ ∀ c ∈ m, c.2 ≠ Config.resetFill := by
  simp [Memory.wf]

theorem mem_insertByte {m : Memory} {a : Nat} {v : Byte} {c : Host.Cell} (h : c ∈ m.insertByte a v) :
    c = (a, v) ∨ c ∈ m := by
  induction m with
  | nil => simpa [Memory.insertByte] using h
  | cons d rest ih =>
    obtain ⟨k, u⟩ := d
    unfold Memory.insertByte at h
    split at h
    · simpa using h
    · split at h
      · rcases List.mem_cons.1 h with h | h
        · exact .inl h
        · exact .inr (List.mem_cons_of_mem _ h)
      · rcases List.mem_cons.1 h with h | h
        · exact .inr (h ▸ List.mem_cons_self)
        · rcases ih h with h | h
          · exact .inl h
          · exact .inr (List.mem_cons_of_mem _ h)

theorem insertByte_rising {m : Memory} (a : Nat) (v : Byte) (h : m.Pairwise (fun c d => c.1 < d.1)) :
    (m.insertByte a v).Pairwise (fun c d => c.1 < d.1) := by
  induction m with
  | nil => simp [Memory.insertByte]
  | cons d rest ih =>
    obtain ⟨k, u⟩ := d
    have ⟨hk, hr⟩ := List.pairwise_cons.1 h
    unfold Memory.insertByte
    split
    · rename_i hlt
      refine List.pairwise_cons.2 ⟨fun c hc => ?_, h⟩
      rcases List.mem_cons.1 hc with rfl | hc
      · exact hlt
      · exact Nat.lt_trans hlt (hk c hc)
    · split
      · rename_i he
        exact List.pairwise_cons.2 ⟨fun c hc => he ▸ hk c hc, hr⟩
      · refine List.pairwise_cons.2 ⟨fun c hc => ?_, ih hr⟩
        rcases mem_insertByte hc with rfl | hc
        · show k < a
          omega
        · exact hk c hc

/-- Writing a byte keeps the canonical form. -/
theorem writeByte_wf {m : Memory} (a : Nat) (v : Byte) (h : m.wf = true) : (m.writeByte a v).wf = true := by
  have ⟨hr, hv⟩ := (wf_iff m).1 h
  refine (wf_iff _).2 ?_
  unfold Memory.writeByte
  split
  · exact ⟨hr.filter _, fun c hc => hv c (List.mem_of_mem_filter hc)⟩
  · rename_i hne
    refine ⟨insertByte_rising a v hr, fun c hc => ?_⟩
    rcases mem_insertByte hc with rfl | hc
    · exact hne
    · exact hv c hc

theorem writeBytes_wf {m : Memory} (a : Nat) (bs : List Byte) (h : m.wf = true) :
    (m.writeBytes a bs).wf = true := by
  induction bs generalizing m a with
  | nil => exact h
  | cons v rest ih => exact ih (a + 1) (writeByte_wf a v h)

/-- Writing a word keeps the canonical form. -/
theorem writeWord_wf {m : Memory} (a : Nat) (w : Word) (h : m.wf = true) : (m.writeWord a w).wf = true :=
  writeBytes_wf a _ h

/-- A byte write lists no new address but its own. -/
theorem mem_writeByte {m : Memory} {a : Nat} {v : Byte} {c : Host.Cell} (h : c ∈ m.writeByte a v) :
    c.1 = a ∨ c ∈ m := by
  unfold Memory.writeByte at h
  split at h
  · exact .inr (List.mem_of_mem_filter h)
  · rcases mem_insertByte h with rfl | h
    · exact .inl rfl
    · exact .inr h

/-- A write of bytes lists no new address but its own. -/
theorem mem_writeBytes {m : Memory} {a : Nat} {bs : List Byte} {c : Host.Cell} (h : c ∈ m.writeBytes a bs) :
    (a ≤ c.1 ∧ c.1 < a + bs.length) ∨ c ∈ m := by
  induction bs generalizing m a with
  | nil => exact .inr h
  | cons v rest ih =>
    rcases ih h with h | h
    · left; simp; omega
    · rcases mem_writeByte h with h | h
      · left; simp; omega
      · exact .inr h

/-- A word write lists no new address but its own eight. -/
theorem mem_writeWord {m : Memory} {a : Nat} {w : Word} {c : Host.Cell} (h : c ∈ m.writeWord a w) :
    (a ≤ c.1 ∧ c.1 < a + 8) ∨ c ∈ m := mem_writeBytes h

/-- Canonical memories that read alike everywhere are equal. -/
theorem wf_ext {m n : Memory} (hm : m.wf = true) (hn : n.wf = true) (h : ∀ a, m.readByte a = n.readByte a) :
    m = n := by
  have key : ∀ {m : Memory}, m.wf = true → ∀ c : Host.Cell,
      c ∈ m ↔ m.readByte c.1 = c.2 ∧ c.2 ≠ Config.resetFill := by
    intro m hm c
    have ⟨hr, hv⟩ := (wf_iff m).1 hm
    clear hm
    induction m with
    | nil =>
      simp only [List.not_mem_nil, false_iff, Memory.readByte]
      exact fun ⟨e, hne⟩ => hne e.symm
    | cons d rest ih =>
      obtain ⟨k, u⟩ := d
      have ⟨hk, hr'⟩ := List.pairwise_cons.1 hr
      have ih := ih hr' fun c hc => hv c (List.mem_cons_of_mem _ hc)
      have hu : u ≠ Config.resetFill := hv (k, u) List.mem_cons_self
      rw [List.mem_cons, Memory.readByte]
      by_cases e : k = c.1
      · rw [if_pos e]
        constructor
        · rintro (rfl | hc)
          · exact ⟨rfl, hu⟩
          · exact absurd (hk c hc) (by simp [e])
        · rintro ⟨e2, -⟩
          exact .inl (Prod.ext e.symm e2.symm)
      · rw [if_neg e]
        refine Iff.trans ?_ ih
        constructor
        · rintro (rfl | hc)
          · exact absurd rfl e
          · exact hc
        · exact .inr
  have hmem : ∀ c, c ∈ m ↔ c ∈ n := fun c => by rw [key hm, key hn, h]
  have hm' := ((wf_iff m).1 hm).1
  have hn' := ((wf_iff n).1 hn).1
  refine List.Perm.eq_of_pairwise (le := fun c d : Host.Cell => c.1 < d.1) ?_ hm' hn' ?_
  · intro a b _ _ h1 h2; exact absurd h1 (by omega)
  · exact (List.perm_ext_iff_of_nodup (hm'.imp fun h e => by simp [e] at h)
      (hn'.imp fun h e => by simp [e] at h)).2 hmem

end Sys2Proof.Machine
end

