-- ==== Sys2Proof/Laws/State.lean ====
section
/-! SUPPORT. One lemma per field per update of State, tagged simp, so that no proof unfolds a record update. -/

namespace Sys2Proof.Machine

/-! writeReg touches the registers alone. -/

@[simp] theorem writeReg_launch (s : State) (r v) : (s.writeReg r v).launch = s.launch := by
  unfold State.writeReg; split <;> rfl
@[simp] theorem writeReg_pc (s : State) (r v) : (s.writeReg r v).pc = s.pc := by
  unfold State.writeReg; split <;> rfl
@[simp] theorem writeReg_mem (s : State) (r v) : (s.writeReg r v).mem = s.mem := by
  unfold State.writeReg; split <;> rfl
@[simp] theorem writeReg_programBreak (s : State) (r v) : (s.writeReg r v).programBreak = s.programBreak := by
  unfold State.writeReg; split <;> rfl
@[simp] theorem writeReg_status (s : State) (r v) : (s.writeReg r v).status = s.status := by
  unfold State.writeReg; split <;> rfl
@[simp] theorem writeReg_exitCode (s : State) (r v) : (s.writeReg r v).exitCode = s.exitCode := by
  unfold State.writeReg; split <;> rfl
@[simp] theorem writeReg_faultCause (s : State) (r v) : (s.writeReg r v).faultCause = s.faultCause := by
  unfold State.writeReg; split <;> rfl
@[simp] theorem writeReg_stdout (s : State) (r v) : (s.writeReg r v).stdout = s.stdout := by
  unfold State.writeReg; split <;> rfl
@[simp] theorem writeReg_draws (s : State) (r v) : (s.writeReg r v).draws = s.draws := by
  unfold State.writeReg; split <;> rfl

@[simp] theorem readReg_zero (s : State) : s.readReg 0#5 = 0#64 := rfl

@[simp] theorem writeReg_zero (s : State) (v) : s.writeReg 0#5 v = s := rfl

/-- A register read after a register write. -/
theorem readReg_writeReg (s : State) (r q : RegId) (v : Word) :
    (s.writeReg r v).readReg q = if q = r ∧ r ≠ 0#5 then v else s.readReg q := by
  unfold State.readReg State.writeReg
  by_cases hq : q = 0#5
  · subst hq; by_cases hr : 0#5 = r <;> simp [hr]
  · by_cases hr : r = 0#5
    · simp [hr, hq]
    · by_cases h : q = r
      · subst h; simp [hq]
      · have : r.toNat ≠ q.toNat := fun e => h (BitVec.eq_of_toNat_eq e.symm)
        simp [hq, hr, h, this]

@[simp] theorem readReg_writeReg_ne (s : State) {r q : RegId} (v : Word) (h : q ≠ r) :
    (s.writeReg r v).readReg q = s.readReg q := by simp [readReg_writeReg, h]

theorem readReg_writeReg_self (s : State) (r : RegId) (v : Word) :
    (s.writeReg r v).readReg r = if r = 0#5 then 0#64 else v := by
  by_cases h : r = 0#5
  · simp [h]
  · simp [readReg_writeReg, h]

/-- Slot 0 is never written. -/
@[simp] theorem writeReg_slotZero (s : State) (r : RegId) (v : Word) :
    (s.writeReg r v).regs[0] = s.regs[0] := by
  unfold State.writeReg
  split
  · rfl
  · have : r.toNat ≠ 0 := fun e => by simp_all [← BitVec.toNat_inj]
    simp [this]

/-- Writes to different registers commute. -/
theorem writeReg_comm (s : State) {r q : RegId} (u v : Word) (h : r ≠ q) :
    (s.writeReg r u).writeReg q v = (s.writeReg q v).writeReg r u := by
  by_cases hr : r = 0#5
  · simp [State.writeReg, hr]
  · by_cases hq : q = 0#5
    · simp [State.writeReg, hq]
    · simp only [State.writeReg, hr, hq, if_false]
      rw [Vector.set_comm _ _ fun e => h (BitVec.eq_of_toNat_eq e)]

/-- A register reads the same in states with the same register file. -/
theorem readReg_congr {s t : State} (h : t.regs = s.regs) (r : RegId) : t.readReg r = s.readReg r := by
  simp [State.readReg, h]

/-! advancePc. -/

@[simp] theorem advancePc_launch (s : State) : s.advancePc.launch = s.launch := rfl
@[simp] theorem advancePc_regs (s : State) : s.advancePc.regs = s.regs := rfl
@[simp] theorem advancePc_pc (s : State) : s.advancePc.pc = s.pc + 4#64 := rfl
@[simp] theorem advancePc_mem (s : State) : s.advancePc.mem = s.mem := rfl
@[simp] theorem advancePc_programBreak (s : State) : s.advancePc.programBreak = s.programBreak := rfl
@[simp] theorem advancePc_status (s : State) : s.advancePc.status = s.status := rfl
@[simp] theorem advancePc_exitCode (s : State) : s.advancePc.exitCode = s.exitCode := rfl
@[simp] theorem advancePc_faultCause (s : State) : s.advancePc.faultCause = s.faultCause := rfl
@[simp] theorem advancePc_stdout (s : State) : s.advancePc.stdout = s.stdout := rfl
@[simp] theorem advancePc_draws (s : State) : s.advancePc.draws = s.draws := rfl
@[simp] theorem advancePc_readReg (s : State) (r) : s.advancePc.readReg r = s.readReg r := rfl

/-! emit. -/

@[simp] theorem emit_launch (s : State) (bs) : (s.emit bs).launch = s.launch := rfl
@[simp] theorem emit_regs (s : State) (bs) : (s.emit bs).regs = s.regs := rfl
@[simp] theorem emit_pc (s : State) (bs) : (s.emit bs).pc = s.pc := rfl
@[simp] theorem emit_mem (s : State) (bs) : (s.emit bs).mem = s.mem := rfl
@[simp] theorem emit_programBreak (s : State) (bs) : (s.emit bs).programBreak = s.programBreak := rfl
@[simp] theorem emit_status (s : State) (bs) : (s.emit bs).status = s.status := rfl
@[simp] theorem emit_exitCode (s : State) (bs) : (s.emit bs).exitCode = s.exitCode := rfl
@[simp] theorem emit_faultCause (s : State) (bs) : (s.emit bs).faultCause = s.faultCause := rfl
@[simp] theorem emit_stdout (s : State) (bs) : (s.emit bs).stdout = s.stdout ++ bs := rfl
@[simp] theorem emit_draws (s : State) (bs) : (s.emit bs).draws = s.draws := rfl
@[simp] theorem emit_readReg (s : State) (bs) (r) : (s.emit bs).readReg r = s.readReg r := rfl

/-! raise: everything but the pc, which is a free value. -/

@[simp] theorem raise_launch (s : State) (f) : (s.raise f).launch = s.launch := rfl
@[simp] theorem raise_regs (s : State) (f) : (s.raise f).regs = s.regs := rfl
@[simp] theorem raise_mem (s : State) (f) : (s.raise f).mem = s.mem := rfl
@[simp] theorem raise_programBreak (s : State) (f) : (s.raise f).programBreak = s.programBreak := rfl
@[simp] theorem raise_status (s : State) (f) : (s.raise f).status = .faulted := rfl
@[simp] theorem raise_exitCode (s : State) (f) : (s.raise f).exitCode = s.exitCode := rfl
@[simp] theorem raise_faultCause (s : State) (f) : (s.raise f).faultCause = f := rfl
@[simp] theorem raise_stdout (s : State) (f) : (s.raise f).stdout = s.stdout := rfl
@[simp] theorem raise_draws (s : State) (f) : (s.raise f).draws = s.draws + 1 := rfl

/-! retire: write rd, advance. -/

@[simp] theorem retire_launch (s : State) (r v) : (s.retire r v).launch = s.launch := by simp [State.retire]
@[simp] theorem retire_pc (s : State) (r v) : (s.retire r v).pc = s.pc + 4#64 := by simp [State.retire]
@[simp] theorem retire_mem (s : State) (r v) : (s.retire r v).mem = s.mem := by simp [State.retire]
@[simp] theorem retire_programBreak (s : State) (r v) : (s.retire r v).programBreak = s.programBreak := by
  simp [State.retire]
@[simp] theorem retire_status (s : State) (r v) : (s.retire r v).status = s.status := by simp [State.retire]
@[simp] theorem retire_exitCode (s : State) (r v) : (s.retire r v).exitCode = s.exitCode := by simp [State.retire]
@[simp] theorem retire_faultCause (s : State) (r v) : (s.retire r v).faultCause = s.faultCause := by
  simp [State.retire]
@[simp] theorem retire_stdout (s : State) (r v) : (s.retire r v).stdout = s.stdout := by simp [State.retire]
@[simp] theorem retire_draws (s : State) (r v) : (s.retire r v).draws = s.draws := by simp [State.retire]
@[simp] theorem retire_slotZero (s : State) (r v) : (s.retire r v).regs[0] = s.regs[0] := by simp [State.retire]
theorem retire_readReg (s : State) (r q v) :
    (s.retire r v).readReg q = if q = r ∧ r ≠ 0#5 then v else s.readReg q := by
  simp [State.retire, readReg_writeReg]

end Sys2Proof.Machine
end

