-- ==== Sys2Proof/Laws/Ops.lean ====
section
/-! SUPPORT. For each shared operation, once, everything it can do. -/

namespace Sys2Proof.Machine

@[simp] theorem conclude_ok (s t : State) : s.conclude (.ok t) = .next t := rfl
@[simp] theorem conclude_error (s : State) (f) : s.conclude (.error f) = .next (s.raise f) := rfl

/-- The end of a rule is always a next state: the result, or the entry to the fatal condition met. -/
theorem conclude_next {s t : State} {r : Except FatalCondition State} (h : s.conclude r = .next t) :
    r = .ok t ∨ ∃ f, r = .error f ∧ t = s.raise f := by
  cases r with
  | ok u => left; simpa using h
  | error f => right; exact ⟨f, rfl, by simpa using h.symm⟩

/-- What the two tests of a data access can answer. -/
theorem checkData_cases (s : State) (addr : Word) :
    (addr.toNat % 8 ≠ 0 ∧ s.checkData addr = .error { cause := .misalignedData, value := addr }) ∨
    (addr.toNat % 8 = 0 ∧ s.launch.memBytes ≤ addr.toNat ∧
      s.checkData addr = .error { cause := .memOutOfRange, value := addr }) ∨
    (addr.toNat % 8 = 0 ∧ addr.toNat < s.launch.memBytes ∧ s.checkData addr = .ok ()) := by
  unfold State.checkData
  by_cases h : addr.toNat % 8 = 0
  · by_cases h2 : s.launch.memBytes ≤ addr.toNat
    · exact .inr (.inl ⟨h, h2, by simp [h, h2]⟩)
    · exact .inr (.inr ⟨h, by omega, by simp [h, h2]⟩)
  · exact .inl ⟨h, by simp [h]⟩

theorem memRead_ok_iff (s : State) (addr v : Word) :
    s.memRead addr = .ok v ↔
      addr.toNat % 8 = 0 ∧ addr.toNat < s.launch.memBytes ∧ v = s.mem.readWord addr.toNat := by
  unfold State.memRead
  rcases checkData_cases s addr with ⟨h, e⟩ | ⟨h, h2, e⟩ | ⟨h, h2, e⟩
  · simp [e, h]
  · simp [e]; omega
  · simp [e, h, h2, eq_comm]

theorem memRead_error_iff (s : State) (addr : Word) (f : FatalCondition) :
    s.memRead addr = .error f ↔
      (addr.toNat % 8 ≠ 0 ∧ f = { cause := .misalignedData, value := addr }) ∨
      (addr.toNat % 8 = 0 ∧ s.launch.memBytes ≤ addr.toNat ∧ f = { cause := .memOutOfRange, value := addr }) := by
  unfold State.memRead
  rcases checkData_cases s addr with ⟨h, e⟩ | ⟨h, h2, e⟩ | ⟨h, h2, e⟩
  · simp [e, h, eq_comm]
  · simp [e, h, h2, eq_comm]
  · simp [e, h]; omega

theorem memWrite_ok_iff (s t : State) (addr v : Word) :
    s.memWrite addr v = .ok t ↔
      addr.toNat % 8 = 0 ∧ addr.toNat < s.launch.memBytes ∧
      t = { s with mem := s.mem.writeWord addr.toNat v } := by
  unfold State.memWrite
  rcases checkData_cases s addr with ⟨h, e⟩ | ⟨h, h2, e⟩ | ⟨h, h2, e⟩
  · simp [e, h]
  · simp [e]; omega
  · simp [e, h, h2, eq_comm]

theorem memWrite_error_iff (s : State) (addr v : Word) (f : FatalCondition) :
    s.memWrite addr v = .error f ↔
      (addr.toNat % 8 ≠ 0 ∧ f = { cause := .misalignedData, value := addr }) ∨
      (addr.toNat % 8 = 0 ∧ s.launch.memBytes ≤ addr.toNat ∧ f = { cause := .memOutOfRange, value := addr }) := by
  unfold State.memWrite
  rcases checkData_cases s addr with ⟨h, e⟩ | ⟨h, h2, e⟩ | ⟨h, h2, e⟩
  · simp [e, h, eq_comm]
  · simp [e, h, h2, eq_comm]
  · simp [e, h]; omega

theorem jumpPc_cases (s : State) (t : Word) :
    (t.toNat % 4 = 0 ∧ s.jumpPc t = .ok { s with pc := t }) ∨
    (t.toNat % 4 ≠ 0 ∧ s.jumpPc t = .error { cause := .misalignedPC, value := t }) := by
  unfold State.jumpPc
  by_cases h : t.toNat % 4 = 0
  · exact .inl ⟨h, if_pos h⟩
  · exact .inr ⟨h, if_neg h⟩

theorem checkDivisor_cases (s : State) (b : Word) :
    (b = 0#64 ∧ s.checkDivisor b = .error { cause := .divideByZero, value := s.pc }) ∨
    (b ≠ 0#64 ∧ s.checkDivisor b = .ok ()) := by
  unfold State.checkDivisor
  by_cases h : b = 0#64
  · exact .inl ⟨h, if_pos h⟩
  · exact .inr ⟨h, if_neg h⟩

/-- The two ends of a linking jump. -/
theorem linkAndJump_cases (rd : RegId) (target : Word) (s : State) :
    (target.toNat % 4 = 0 ∧ linkAndJump rd target s = { s.writeReg rd s.link with pc := target }) ∨
    (target.toNat % 4 ≠ 0 ∧ linkAndJump rd target s =
      (s.writeReg rd (Config.freeLink s.draws)).raise { cause := .misalignedPC, value := target }) := by
  unfold linkAndJump
  rcases jumpPc_cases (s.writeReg rd s.link) target with ⟨h, e⟩ | ⟨h, e⟩
  · exact .inl ⟨h, by rw [e]⟩
  · exact .inr ⟨h, by rw [e]⟩

/-! Chunk reads. -/

/-- Chunk i from base a reads without a fatal condition. -/
abbrev ChunkOk (s : State) (a : Word) (i : Nat) : Prop :=
  (a + BitVec.ofNat 64 (8 * i)).toNat % 8 = 0 ∧ (a + BitVec.ofNat 64 (8 * i)).toNat < s.launch.memBytes

/-- Byte k of the bytes read in chunks from base a. -/
def chunkByte (s : State) (a : Word) (k : Nat) : Byte :=
  s.mem.readByte ((a + BitVec.ofNat 64 (8 * (k / 8))).toNat + k % 8)

theorem chunk_shift (a : Word) (i : Nat) :
    a + 8#64 + BitVec.ofNat 64 (8 * i) = a + BitVec.ofNat 64 (8 * (i + 1)) := by
  rw [BitVec.add_assoc, BitVec.ofNat_add_ofNat]
  congr 2
  omega

/-- All chunks readable: every one is read, and its bytes come in address order. -/
theorem readChunks_all (s : State) (n : Nat) (a : Word) (h : ∀ i < n, ChunkOk s a i) :
    (readChunks s n a).2 = none ∧ (readChunks s n a).1.length = 8 * n ∧
    ∀ k < 8 * n, (readChunks s n a).1[k]? = some (chunkByte s a k) := by
  induction n generalizing a with
  | zero => simp [readChunks]
  | succ n ih =>
    have h0 : a.toNat % 8 = 0 ∧ a.toNat < s.launch.memBytes := by simpa [ChunkOk] using h 0 (by omega)
    have e : s.memRead a = .ok (s.mem.readWord a.toNat) := (memRead_ok_iff _ _ _).2 ⟨h0.1, h0.2, rfl⟩
    obtain ⟨i1, i2, i3⟩ := ih (a + 8#64) fun i hi => by
      have := h (i + 1) (by omega)
      rwa [ChunkOk, ← chunk_shift] at this
    simp only [readChunks, e]
    refine ⟨i1, by simp [i2]; omega, fun k hk => ?_⟩
    by_cases hk8 : k < 8
    · rw [List.getElem?_append_left (by simpa using hk8), List.getElem?_eq_getElem (by simpa using hk8),
        getElem_bytesOfWord _ _ hk8, extract_readWord _ _ _ hk8]
      simp [chunkByte, Nat.div_eq_of_lt hk8, Nat.mod_eq_of_lt hk8]
    · rw [List.getElem?_append_right (by simp; omega), length_bytesOfWord, i3 (k - 8) (by omega)]
      have e1 : k / 8 = (k - 8) / 8 + 1 := by omega
      have e2 : (k - 8) % 8 = k % 8 := by omega
      rw [chunkByte, chunkByte, chunk_shift, ← e1, e2]

/-- The first chunk that does not read ends the reads, with the condition it raised. -/
theorem readChunks_raise (s : State) (n k : Nat) (a : Word) (hk : k < n) (h : ∀ i < k, ChunkOk s a i)
    {f : FatalCondition} (hf : s.memRead (a + BitVec.ofNat 64 (8 * k)) = .error f) :
    (readChunks s n a).2 = some f ∧ (readChunks s n a).1 = (readChunks s k a).1 := by
  induction k generalizing n a with
  | zero =>
    obtain ⟨m, rfl⟩ : ∃ m, n = m + 1 := ⟨n - 1, by omega⟩
    have e : s.memRead a = .error f := by simpa using hf
    simp [readChunks, e]
  | succ k ih =>
    obtain ⟨m, rfl⟩ : ∃ m, n = m + 1 := ⟨n - 1, by omega⟩
    have h0 : a.toNat % 8 = 0 ∧ a.toNat < s.launch.memBytes := by simpa [ChunkOk] using h 0 (by omega)
    have e : s.memRead a = .ok (s.mem.readWord a.toNat) := (memRead_ok_iff _ _ _).2 ⟨h0.1, h0.2, rfl⟩
    obtain ⟨i1, i2⟩ := ih m (a + 8#64) (by omega)
      (fun i hi => by
        have := h (i + 1) (by omega)
        rwa [ChunkOk, ← chunk_shift] at this)
      (by rw [chunk_shift]; exact hf)
    simp [readChunks, e, i1, i2]

/-- Chunk reads depend on memory and its size alone. -/
theorem readChunks_congr {s t : State} (hl : t.launch = s.launch) (hm : t.mem = s.mem) (n : Nat) (a : Word) :
    readChunks t n a = readChunks s n a := by
  induction n generalizing a with
  | zero => rfl
  | succ n ih =>
    have e : t.memRead a = s.memRead a := by simp [State.memRead, State.checkData, hl, hm]
    simp [readChunks, e, ih]

end Sys2Proof.Machine
end

