-- ==== Sys2Proof/Laws/Boot.lean ====
section
/-! SUPPORT. For each operation of the reset sequence, once, everything it does. -/

namespace Sys2Proof.Machine

/-- What pushing and copying leave alone: all but sp and memory; memory stays canonical and inside its range. -/
structure OnlySpAndMem (s t : State) : Prop where
  launch : t.launch = s.launch
  pc : t.pc = s.pc
  programBreak : t.programBreak = s.programBreak
  status : t.status = s.status
  exitCode : t.exitCode = s.exitCode
  faultCause : t.faultCause = s.faultCause
  stdout : t.stdout = s.stdout
  regs : ∀ r, r ≠ s.launch.params.regSp → t.readReg r = s.readReg r
  slotZero : t.regs[0] = s.regs[0]
  memWf : s.mem.wf = true → t.mem.wf = true
  memInside : (∀ c ∈ s.mem, c.1 < s.launch.memBytes) → ∀ c ∈ t.mem, c.1 < s.launch.memBytes

theorem OnlySpAndMem.refl (s : State) : OnlySpAndMem s s :=
  ⟨rfl, rfl, rfl, rfl, rfl, rfl, rfl, fun _ _ => rfl, rfl, id, id⟩

theorem OnlySpAndMem.trans {s t u : State} (h : OnlySpAndMem s t) (k : OnlySpAndMem t u) : OnlySpAndMem s u where
  launch := k.launch.trans h.launch
  pc := k.pc.trans h.pc
  programBreak := k.programBreak.trans h.programBreak
  status := k.status.trans h.status
  exitCode := k.exitCode.trans h.exitCode
  faultCause := k.faultCause.trans h.faultCause
  stdout := k.stdout.trans h.stdout
  regs r hr := (k.regs r (by rwa [h.launch])).trans (h.regs r hr)
  slotZero := k.slotZero.trans h.slotZero
  memWf hm := k.memWf (h.memWf hm)
  memInside hm := by
    have := k.memInside (by rw [h.launch]; exact h.memInside hm)
    rwa [h.launch] at this

/-- An aligned word inside memory is stored. -/
theorem memWrite_ok {s : State} {addr v : Word} (h8 : addr.toNat % 8 = 0) (hm : addr.toNat < s.launch.memBytes) :
    s.memWrite addr v = .ok { s with mem := s.mem.writeWord addr.toNat v } :=
  (memWrite_ok_iff s _ addr v).2 ⟨h8, hm, rfl⟩

/-- Storing a word changes memory alone. -/
theorem OnlySpAndMem.writeWord {s : State} {a : Nat} {v : Word} (h : a + 8 ≤ s.launch.memBytes) :
    OnlySpAndMem s { s with mem := s.mem.writeWord a v } where
  launch := rfl
  pc := rfl
  programBreak := rfl
  status := rfl
  exitCode := rfl
  faultCause := rfl
  stdout := rfl
  regs _ _ := rfl
  slotZero := rfl
  memWf hm := writeWord_wf a v hm
  memInside hm c hc := by
    rcases mem_writeWord hc with h1 | h1
    · omega
    · exact hm c h1

/-- Setting sp changes sp alone. -/
theorem OnlySpAndMem.setSp (s : State) (v : Word) : OnlySpAndMem s (s.writeReg s.launch.params.regSp v) where
  launch := by simp
  pc := by simp
  programBreak := by simp
  status := by simp
  exitCode := by simp
  faultCause := by simp
  stdout := by simp
  regs r hr := readReg_writeReg_ne s v hr
  slotZero := by simp
  memWf hm := by simpa using hm
  memInside hm := by simpa using hm

/-- The stack has room for n words below p. -/
structure StackRoom (s : State) (p n : Nat) : Prop where
  sp : s.sp.toNat = p
  notZero : s.launch.params.regSp ≠ 0#5
  aligned : p % 8 = 0
  room : 8 * n ≤ p
  inside : p ≤ s.launch.memBytes
  memBytes : s.launch.memBytes % 8 = 0

/-- Every byte outside [lo, hi) reads as before. -/
def SameOutside (lo hi : Nat) (s t : State) : Prop :=
  ∀ a, (a < lo ∨ hi ≤ a) → t.mem.readByte a = s.mem.readByte a

theorem pushStack_spec {s : State} {p n : Nat} (v : Word) (h : StackRoom s p (n + 1)) :
    ∃ t, pushStack s v = .ok t ∧ StackRoom t (p - 8) n ∧ OnlySpAndMem s t ∧
      t.mem = s.mem.writeWord (p - 8) v := by
  have h1 := h.sp; have h2 := h.room; have h3 := h.inside; have h4 := h.aligned; have h5 := h.memBytes
  have hs : (s.sp - 8#64).toNat = p - 8 := by bv_omega
  have hl : (s.writeReg s.launch.params.regSp (s.sp - 8#64)).launch = s.launch := by simp
  refine ⟨_, memWrite_ok (by omega) (by rw [hl]; omega), ⟨?_, ?_, by omega, by omega, ?_, ?_⟩, ?_, ?_⟩
  · have hr : (s.writeReg s.launch.params.regSp (s.sp - 8#64)).sp = s.sp - 8#64 := by
      simp [State.sp, readReg_writeReg_self, h.notZero]
    exact (congrArg BitVec.toNat hr).trans hs
  · show (s.writeReg _ _).launch.params.regSp ≠ 0#5
    rw [hl]; exact h.notZero
  · show p - 8 ≤ (s.writeReg _ _).launch.memBytes
    rw [hl]; omega
  · show (s.writeReg _ _).launch.memBytes % 8 = 0
    rw [hl]; exact h5
  · exact (OnlySpAndMem.setSp s _).trans (OnlySpAndMem.writeWord (by rw [hl]; omega))
  · simp [hs]

/-- Pushed words lie at falling addresses, the first highest. -/
theorem pushWords_spec (vs : List Word) {s : State} {p n : Nat} (h : StackRoom s p (vs.length + n)) :
    ∃ t, pushWords vs s = .ok t ∧ StackRoom t (p - 8 * vs.length) n ∧ OnlySpAndMem s t ∧
      SameOutside (p - 8 * vs.length) p s t ∧
      ∀ i w, vs[i]? = some w → t.mem.readWord (p - 8 * (i + 1)) = w := by
  induction vs generalizing s p with
  | nil => exact ⟨s, rfl, by simpa using h, .refl s, fun _ _ => rfl, by simp⟩
  | cons v rest ih =>
    have hroom := h.room
    simp only [List.length_cons] at hroom
    obtain ⟨t, e, ht, hst, hm⟩ := pushStack_spec (n := rest.length + n) v
      (by convert h using 1; simp; omega)
    obtain ⟨u, e', hu, htu, hsame, hw⟩ := ih ht
    refine ⟨u, by simp [pushWords, e, e'], ?_, hst.trans htu, ?_, ?_⟩
    · convert hu using 1; simp; omega
    · intro a ha
      simp only [List.length_cons] at ha
      rw [hsame a (by omega), hm, readByte_writeWord, if_neg (by omega)]
    · intro i w hi
      cases i with
      | zero =>
        simp only [List.getElem?_cons_zero, Option.some.injEq] at hi
        subst hi
        rw [← readWord_writeWord_self s.mem (p - 8 * (0 + 1)) v]
        refine readWord_congr fun j hj => ?_
        rw [hsame _ (by omega), hm]
      | succ k =>
        simp only [List.getElem?_cons_succ] at hi
        rw [show p - 8 * (k + 1 + 1) = p - 8 - 8 * (k + 1) by omega]
        exact hw k w hi

/-- Chunks of eight bytes: how many, and what each holds. -/
theorem packWords_spec (n : Nat) (bs : List Byte) (h : bs.length = 8 * n) :
    (packWords bs).length = n ∧
    ∀ k < 8 * n, ∃ w, (packWords bs)[k / 8]? = some w ∧ w.extractLsb' (8 * (k % 8)) 8 = bs.getD k 0 := by
  induction n generalizing bs with
  | zero =>
    obtain rfl : bs = [] := by simpa using h
    exact ⟨rfl, fun k hk => by omega⟩
  | succ n ih =>
    match bs, h with
    | b0 :: b1 :: b2 :: b3 :: b4 :: b5 :: b6 :: b7 :: rest, h =>
      obtain ⟨hl, hw⟩ := ih rest (by simp at h; omega)
      refine ⟨by simp [packWords, hl], fun k hk => ?_⟩
      by_cases h8 : k < 8
      · refine ⟨_, by rw [show k / 8 = 0 by omega]; rfl, ?_⟩
        rw [show k % 8 = k by omega, extract_wordOfBytes _ _ _ _ _ _ _ _ k h8]
        have : k = 0 ∨ k = 1 ∨ k = 2 ∨ k = 3 ∨ k = 4 ∨ k = 5 ∨ k = 6 ∨ k = 7 := by omega
        rcases this with rfl | rfl | rfl | rfl | rfl | rfl | rfl | rfl <;> rfl
      · obtain ⟨j, rfl⟩ : ∃ j, k = j + 8 := ⟨k - 8, by omega⟩
        obtain ⟨w, e1, e2⟩ := hw j (by omega)
        refine ⟨w, ?_, ?_⟩
        · rw [show (j + 8) / 8 = j / 8 + 1 by omega]; simpa [packWords] using e1
        · rw [show (j + 8) % 8 = j % 8 by omega, e2]; simp [List.getD]
    | [], h => simp at h
    | [_], h => simp at h; omega
    | [_, _], h => simp at h; omega
    | [_, _, _], h => simp at h; omega
    | [_, _, _, _], h => simp at h; omega
    | [_, _, _, _, _], h => simp at h; omega
    | [_, _, _, _, _, _], h => simp at h; omega
    | [_, _, _, _, _, _, _], h => simp at h; omega

theorem length_padString (arg : List Byte) : (padString arg).length = 8 * stringWords arg := by
  simp [padString, stringWords]; omega

theorem getD_padString (arg : List Byte) (k : Nat) : (padString arg).getD k 0 = arg.getD k 0 := by
  unfold padString
  simp only [List.getD_eq_getElem?_getD, List.getElem?_append]
  split
  · rfl
  · rename_i h
    rw [List.getElem?_replicate, List.getElem?_eq_none (by omega)]
    split <;> rfl

/-- The strings of the arguments, packed below p. -/
theorem pushStrings_spec (args : List (List Byte)) {s : State} {p n : Nat}
    (h : StackRoom s p ((args.map stringWords).sum + n)) :
    ∃ ptrs t, pushStrings args s = .ok (ptrs, t) ∧ StackRoom t (p - 8 * (args.map stringWords).sum) n ∧
      OnlySpAndMem s t ∧ SameOutside (p - 8 * (args.map stringWords).sum) p s t ∧
      ptrs = (List.range args.length).map (fun i => BitVec.ofNat 64 (p - 8 * ((args.drop i).map stringWords).sum)) ∧
      ∀ i arg, args[i]? = some arg → ∀ k < 8 * stringWords arg,
        t.mem.readByte (p - 8 * ((args.drop i).map stringWords).sum + k) = arg.getD k 0 := by
  induction args generalizing n with
  | nil => exact ⟨[], s, rfl, by simpa using h, .refl s, fun _ _ => rfl, rfl, by simp⟩
  | cons arg rest ih =>
    have hroom := h.room
    simp only [List.map_cons, List.sum_cons] at hroom
    obtain ⟨ptrs, t, e, ht, hst, hsame, hp, hb⟩ := ih (n := stringWords arg + n)
      (by convert h using 1; simp; omega)
    obtain ⟨hlen, hword⟩ := packWords_spec (stringWords arg) (padString arg) (length_padString arg)
    have hlr : (packWords (padString arg)).reverse.length = stringWords arg := by simpa using hlen
    generalize hS : (rest.map stringWords).sum = S at *
    obtain ⟨u, e', hu, htu, hsame', hw⟩ := pushWords_spec (packWords (padString arg)).reverse (n := n)
      (by rw [hlr]; exact ht)
    rw [hlr] at hu hsame'
    have hq : p - 8 * S - 8 * stringWords arg = p - 8 * (stringWords arg + S) := by omega
    rw [hq] at hu hsame'
    refine ⟨u.sp :: ptrs, u, by simp [pushStrings, e, e'], by simpa [hS] using hu, hst.trans htu, ?_, ?_, ?_⟩
    · intro a ha
      simp only [List.map_cons, List.sum_cons, hS] at ha
      rw [hsame' a (by omega), hsame a (by omega)]
    · rw [List.length_cons, List.range_succ_eq_map, List.map_cons, hp]
      congr 1
      · have := hu.sp
        simp only [List.drop_zero, List.map_cons, List.sum_cons, hS]
        rw [← this]; simp
      · simp [Function.comp_def]
    · intro i a hi k hk
      cases i with
      | zero =>
        simp only [List.getElem?_cons_zero, Option.some.injEq] at hi
        subst hi
        simp only [List.drop_zero, List.map_cons, List.sum_cons, hS]
        obtain ⟨w, e1, e2⟩ := hword k hk
        rw [← getD_padString, ← e2]
        have hj : (packWords (padString arg)).reverse[stringWords arg - 1 - k / 8]? = some w := by
          rw [List.getElem?_reverse (by omega), hlen, ← e1]; congr 1; omega
        rw [← hw _ _ hj, extract_readWord _ _ _ (by omega)]
        congr 1; omega
      | succ j =>
        simp only [List.getElem?_cons_succ] at hi
        simp only [List.drop_succ_cons]
        have hle : ((rest.drop j).map stringWords).sum ≤ S ∧ stringWords a ≤ ((rest.drop j).map stringWords).sum := by
          have hd : rest.drop j = a :: rest.drop (j + 1) := by
            obtain ⟨hjl, hje⟩ := List.getElem?_eq_some_iff.1 hi
            rw [List.drop_eq_getElem_cons hjl, hje]
          constructor
          · rw [← hS, ← List.sum_take_add_sum_drop (rest.map stringWords) j, List.map_drop]; omega
          · rw [hd]; simp
        rw [hsame' _ (by omega)]
        exact hb j a hi k hk

/-- The data segment lies at rising addresses. -/
theorem copyData_spec (ds : List Word) {s : State} {a : Word} (h8 : a.toNat % 8 = 0)
    (hm : a.toNat + 8 * ds.length ≤ s.launch.memBytes) (hb : s.launch.memBytes < 2 ^ 64) :
    ∃ t, copyData ds a s = .ok t ∧ OnlySpAndMem s t ∧ t.regs = s.regs ∧
      SameOutside a.toNat (a.toNat + 8 * ds.length) s t ∧
      ∀ k d, ds[k]? = some d → t.mem.readWord (a.toNat + 8 * k) = d := by
  induction ds generalizing s a with
  | nil => exact ⟨s, rfl, .refl s, rfl, fun _ _ => rfl, by simp⟩
  | cons d rest ih =>
    simp only [List.length_cons] at hm
    have ha : rest ≠ [] ∨ rest = [] := by by_cases h : rest = [] <;> simp [h]
    have e := memWrite_ok (s := s) (v := d) h8 (by omega)
    have hk : OnlySpAndMem s { s with mem := s.mem.writeWord a.toNat d } := .writeWord (by omega)
    rcases ha with hne | rfl
    · have hpos : 0 < rest.length := List.length_pos_iff.2 hne
      have ha8 : (a + 8#64).toNat = a.toNat + 8 := by bv_omega
      obtain ⟨t, e', hkt, hr, hsame, hw⟩ := ih (s := { s with mem := s.mem.writeWord a.toNat d }) (a := a + 8#64)
        (by omega) (by simp only []; omega) hb
      refine ⟨t, by simp [copyData, e, e'], hk.trans hkt, hr, ?_, ?_⟩
      · intro b hb'
        simp only [List.length_cons] at hb'
        rw [hsame b (by omega)]
        simp only []
        rw [readByte_writeWord, if_neg (by omega)]
      · intro k w hkw
        cases k with
        | zero =>
          simp only [List.getElem?_cons_zero, Option.some.injEq] at hkw
          subst hkw
          rw [← readWord_writeWord_self s.mem (a.toNat + 8 * 0) d]
          exact readWord_congr fun j hj => hsame _ (by omega)
        | succ j =>
          simp only [List.getElem?_cons_succ] at hkw
          rw [← hw j w hkw]; congr 1; omega
    · refine ⟨_, by simp [copyData, e], hk, rfl, ?_, ?_⟩
      · intro b hb'
        simp only [List.length_cons] at hb'
        simp only []
        rw [readByte_writeWord, if_neg (by simp at hb'; omega)]
      · intro k w hkw
        cases k with
        | zero => simp only [List.getElem?_cons_zero, Option.some.injEq] at hkw; subst hkw; simp
        | succ j => simp at hkw

/-- What a well-formed launch gives. -/
structure LaunchFacts (l : Launch) : Prop where
  params : Params.wf l.params = true
  memAligned : l.memBytes % 8 = 0
  memBytes : l.memBytes < 2 ^ 64
  codeAligned : l.codeBase.toNat % 4 = 0
  codeEnd : l.codeBase.toNat + 4 * l.code.length ≤ 2 ^ 64
  dataAligned : l.dataBase.toNat % 8 = 0
  dataEnd : l.dataEnd ≤ l.memBytes
  stackFits : Launch.initialBreak l + 8 * Launch.stackWords l ≤ l.memBytes

theorem launchFacts {l : Launch} (h : Launch.wf l = true) : LaunchFacts l := by
  simp only [Launch.wf, Bool.and_eq_true, decide_eq_true_eq] at h
  obtain ⟨⟨⟨⟨⟨⟨⟨⟨h1, h2⟩, h3⟩, h4⟩, h5⟩, h6⟩, h7⟩, _⟩, h9⟩ := h
  exact ⟨h1, h2, h3, h4, h5, h6, h7, h9⟩

theorem regSp_ne_zero {p : Params} (h : Params.wf p = true) : p.regSp ≠ 0#5 := by
  simp only [Params.wf, Bool.and_eq_true, decide_eq_true_eq] at h
  have := h.1
  simp only [List.nodup_cons, List.mem_cons, not_or] at this
  exact fun e => this.1.1 e.symm

theorem regA0_ne_zero {p : Params} (h : Params.wf p = true) : p.regA0 ≠ 0#5 := by
  simp only [Params.wf, Bool.and_eq_true, decide_eq_true_eq] at h
  have := h.1
  simp only [List.nodup_cons, List.mem_cons, not_or] at this
  exact fun e => this.1.2.1 e.symm

/-- The initial break is at or above the data segment's end, by less than a page. -/
theorem dataEnd_le_initialBreak (l : Launch) :
    l.dataEnd ≤ Launch.initialBreak l ∧ Launch.initialBreak l % 8 = 0 := by
  unfold Launch.initialBreak Config.pageSize; omega

theorem readReg_created (l : Launch) (r : RegId) : (State.created l).readReg r = 0#64 := by
  unfold State.readReg State.created; split <;> simp

/-- The control state before any store: the pc, the break, sp; every other register and all of memory at the fill. -/
theorem initControl_spec {l : Launch} (h : LaunchFacts l) :
    ∃ s, initControl (State.created l) = .ok s ∧ s.launch = l ∧ s.pc = l.codeBase ∧
      s.programBreak = BitVec.ofNat 64 (Launch.initialBreak l) ∧ s.status = .running ∧ s.stdout = [] ∧
      s.sp = BitVec.ofNat 64 l.memBytes ∧ s.mem = [] ∧ s.regs[0] = 0#64 ∧
      ∀ r, r ≠ l.params.regSp → s.readReg r = 0#64 := by
  have hl : (State.created l).launch = l := rfl
  have hj : ∀ u : State, u.jumpPc l.codeBase = .ok { u with pc := l.codeBase } := fun u => if_pos h.codeAligned
  have hsp : ((State.created l).writeReg l.params.regSp (BitVec.ofNat 64 l.memBytes)).sp = BitVec.ofNat 64 l.memBytes := by
    simp [State.sp, hl, readReg_writeReg_self, regSp_ne_zero h.params]
  refine ⟨_, by unfold initControl; rw [hl, hj], ?_⟩
  refine ⟨?_, rfl, rfl, ?_, ?_, hsp, ?_, ?_, ?_⟩
  · simp [State.created]
  · simp [State.created]
  · simp [State.created]
  · simp [State.created]
  · simp [State.created]
  · intro r hr
    exact (readReg_writeReg_ne _ _ hr).trans (readReg_created l r)

end Sys2Proof.Machine
end

