-- ==== Sys2Proof/Laws/Decode.lean ====
section
/-! SUPPORT. The laws of the binary level: the rows, the fields, the immediates. -/

namespace Sys2Proof

theorem mem_opcodes (op : Opcode) : op ∈ Opcode.all := by cases op <;> decide

/-- Any two rows differ in a bit both fix (30_encoding.md R56). -/
theorem rows_conflict : ∀ op op' : Opcode, op ≠ op' →
    (op.pattern ^^^ op'.pattern) &&& (op.mask &&& op'.mask) ≠ 0#32 := by
  intro a b; cases a <;> cases b <;> decide

/-- A bit that a row fixes. -/
theorem fixed_bit {w mask pattern : InsnWord} (h : w &&& mask = pattern) (i : Nat) (hm : mask.getLsbD i = true) :
    w.getLsbD i = pattern.getLsbD i := by
  rw [← h]; simp [hm]

/-! Sign extension: an immediate in range is its low bits extended, and an extended field is in range (R53, R55). -/

theorem extract_low (n : Nat) (imm : Word) : imm.extractLsb' 0 n = imm.setWidth n := by
  apply BitVec.eq_of_getLsbD_eq; intro i hi; simp [hi]

theorem sext_of_fits12 {imm : Word} (h : immFits12 imm) : (imm.extractLsb' 0 12).signExtend 64 = imm := by
  apply BitVec.eq_of_toInt_eq
  rw [BitVec.toInt_signExtend_of_le (by decide), extract_low, BitVec.toInt_setWidth, Int.bmod_def]
  have := BitVec.toInt_eq_toNat_cond imm
  obtain ⟨h1, h2⟩ := h
  split at this <;> omega

theorem sext_of_fits13 {imm : Word} (h : immFits13 imm) : (imm.extractLsb' 0 13).signExtend 64 = imm := by
  apply BitVec.eq_of_toInt_eq
  rw [BitVec.toInt_signExtend_of_le (by decide), extract_low, BitVec.toInt_setWidth, Int.bmod_def]
  have := BitVec.toInt_eq_toNat_cond imm
  obtain ⟨h1, h2, _⟩ := h
  split at this <;> omega

theorem sext_of_fits20 {imm : Word} (h : immFits20 imm) : (imm.extractLsb' 0 20).signExtend 64 = imm := by
  apply BitVec.eq_of_toInt_eq
  rw [BitVec.toInt_signExtend_of_le (by decide), extract_low, BitVec.toInt_setWidth, Int.bmod_def]
  have := BitVec.toInt_eq_toNat_cond imm
  obtain ⟨h1, h2⟩ := h
  split at this <;> omega

theorem sext_of_fits21 {imm : Word} (h : immFits21 imm) : (imm.extractLsb' 0 21).signExtend 64 = imm := by
  apply BitVec.eq_of_toInt_eq
  rw [BitVec.toInt_signExtend_of_le (by decide), extract_low, BitVec.toInt_setWidth, Int.bmod_def]
  have := BitVec.toInt_eq_toNat_cond imm
  obtain ⟨h1, h2, _⟩ := h
  split at this <;> omega

theorem even_low_bit {imm : Word} (h : imm.toInt % 2 = 0) : imm[0] = false := by
  have : imm.toNat % 2 = 0 := by
    have := BitVec.toInt_eq_toNat_cond imm
    split at this <;> omega
  simp [BitVec.getElem_eq_testBit_toNat, Nat.testBit_zero, this]

theorem append_zero_even (n : Nat) (x : BitVec n) : (x ++ 0#1).toInt % 2 = 0 := by
  have : (x ++ 0#1).toNat % 2 = 0 := by simp [BitVec.toNat_append, Nat.shiftLeft_eq]
  have := BitVec.toInt_eq_toNat_cond (x ++ 0#1)
  have e : ((2 ^ (n + 1) : Nat) : Int) % 2 = 0 := by norm_cast; rw [pow_succ]; omega
  split at this <;> omega

theorem fits12_sext (x : BitVec 12) : immFits12 (x.signExtend 64) := by
  have h1 := BitVec.toInt_lt (x := x); have h2 := BitVec.le_toInt (x := x)
  unfold immFits12; rw [BitVec.toInt_signExtend_of_le (by decide)]; omega

theorem fits13_sext {x : BitVec 13} (h : x.toInt % 2 = 0) : immFits13 (x.signExtend 64) := by
  have h1 := BitVec.toInt_lt (x := x); have h2 := BitVec.le_toInt (x := x)
  unfold immFits13; rw [BitVec.toInt_signExtend_of_le (by decide)]; omega

theorem fits20_sext (x : BitVec 20) : immFits20 (x.signExtend 64) := by
  have h1 := BitVec.toInt_lt (x := x); have h2 := BitVec.le_toInt (x := x)
  unfold immFits20; rw [BitVec.toInt_signExtend_of_le (by decide)]; omega

theorem fits21_sext {x : BitVec 21} (h : x.toInt % 2 = 0) : immFits21 (x.signExtend 64) := by
  have h1 := BitVec.toInt_lt (x := x); have h2 := BitVec.le_toInt (x := x)
  unfold immFits21; rw [BitVec.toInt_signExtend_of_le (by decide)]; omega

/-! What the decoder's field readers take from an encoded word (R54, R63). -/

theorem immI_encodeI (op : Opcode) (rd rs1 : RegId) {imm : Word} (h : immFits12 imm) :
    immI (encodeI op rd rs1 imm) = imm := by
  conv => rhs; rw [← sext_of_fits12 h]
  unfold immI encodeI
  congr 1
  apply BitVec.eq_of_getLsbD_eq
  intro i hi
  interval_cases i <;> simp only [BitVec.getLsbD_append, BitVec.getLsbD_extractLsb'] <;> simp

theorem immS_encodeS (op : Opcode) (rs1 rs2 : RegId) {imm : Word} (h : immFits12 imm) :
    immS (encodeS op rs1 rs2 imm) = imm := by
  conv => rhs; rw [← sext_of_fits12 h]
  unfold immS encodeS
  congr 1
  apply BitVec.eq_of_getLsbD_eq
  intro i hi
  interval_cases i <;> simp only [BitVec.getLsbD_append, BitVec.getLsbD_extractLsb'] <;> simp

theorem immB_encodeB (op : Opcode) (rs1 rs2 : RegId) {imm : Word} (h : immFits13 imm) :
    immB (encodeB op rs1 rs2 imm) = imm := by
  conv => rhs; rw [← sext_of_fits13 h]
  unfold immB encodeB
  congr 1
  apply BitVec.eq_of_getLsbD_eq
  intro i hi
  have e := even_low_bit h.2.2
  interval_cases i <;> simp only [BitVec.getLsbD_append, BitVec.getLsbD_extractLsb'] <;> simp [e]

theorem immU_encodeU (op : Opcode) (rd : RegId) {imm : Word} (h : immFits20 imm) :
    immU (encodeU op rd imm) = imm := by
  conv => rhs; rw [← sext_of_fits20 h]
  unfold immU encodeU
  congr 1
  apply BitVec.eq_of_getLsbD_eq
  intro i hi
  interval_cases i <;> simp only [BitVec.getLsbD_append, BitVec.getLsbD_extractLsb'] <;> simp

theorem immJ_encodeJ (op : Opcode) (rd : RegId) {imm : Word} (h : immFits21 imm) :
    immJ (encodeJ op rd imm) = imm := by
  conv => rhs; rw [← sext_of_fits21 h]
  unfold immJ encodeJ
  congr 1
  apply BitVec.eq_of_getLsbD_eq
  intro i hi
  have e := even_low_bit h.2.2
  interval_cases i <;> simp only [BitVec.getLsbD_append, BitVec.getLsbD_extractLsb'] <;> simp [e]

/-- The register fields of an encoded word, format by format. -/
theorem register_fields (op : Opcode) (a b c : RegId) (imm : Word) :
    (rdField (encodeR op a b c) = a ∧ rs1Field (encodeR op a b c) = b ∧ rs2Field (encodeR op a b c) = c) ∧
    (rdField (encodeI op a b imm) = a ∧ rs1Field (encodeI op a b imm) = b) ∧
    (rs1Field (encodeS op a b imm) = a ∧ rs2Field (encodeS op a b imm) = b) ∧
    (rs1Field (encodeB op a b imm) = a ∧ rs2Field (encodeB op a b imm) = b) ∧
    rdField (encodeU op a imm) = a ∧ rdField (encodeJ op a imm) = a := by
  refine ⟨⟨?_, ?_, ?_⟩, ⟨?_, ?_⟩, ⟨?_, ?_⟩, ⟨?_, ?_⟩, ?_, ?_⟩ <;>
  (apply BitVec.eq_of_getLsbD_eq
   intro i hi
   simp only [encodeR, encodeI, encodeS, encodeB, encodeU, encodeJ, rdField, rs1Field, rs2Field]
   interval_cases i <;> simp only [BitVec.getLsbD_append, BitVec.getLsbD_extractLsb'] <;> simp)

/-- The bytes of a word assemble to the word (20_memory.md R42). -/
theorem insnOfBytes_bytes (w : InsnWord) :
    insnOfBytes (w.extractLsb' 0 8) (w.extractLsb' 8 8) (w.extractLsb' 16 8) (w.extractLsb' 24 8) = w := by
  apply BitVec.eq_of_getLsbD_eq
  intro i hi
  unfold insnOfBytes
  interval_cases i <;> simp only [BitVec.getLsbD_append, BitVec.getLsbD_extractLsb'] <;> simp

end Sys2Proof
end

