-- ==== Sys2Proof/Laws/Exec.lean ====
section
/-! SUPPORT. What exec and step can do, said once: where each rule completes, and an inversion that covers every case. -/

namespace Sys2Proof.Machine

/-! Frames of the shared ends. -/

theorem retire_effect (s : State) (rd : RegId) (v : Word) : WritesRegAndAdvances rd v s (s.retire rd v) := by
  refine ⟨?_, ?_, by simp, fun a => by simp, by simp [SameControl]⟩
  · rw [retire_readReg]; by_cases h : rd = 0#5 <;> simp [h]
  · intro r hr; rw [retire_readReg, if_neg (by simp [hr])]

theorem raise_effect (s : State) (f : FatalCondition) : RaisesQuietly f s (s.raise f) := by
  simp [RaisesQuietly, RaisesAt]

/-- A linking jump that lands: the link, and nothing else but the pc. -/
theorem link_effect (s : State) (rd : RegId) (target : Word) :
    let t : State := { s.writeReg rd s.link with pc := target }
    t.readReg rd = (if rd = 0#5 then 0#64 else s.pc + 4#64) ∧ SameRegsBut rd s t ∧ t.pc = target ∧ SameMem s t ∧
      SameControl s t := by
  refine ⟨?_, ?_, rfl, fun a => by simp, by simp [SameControl]⟩
  · show (s.writeReg rd s.link).readReg rd = _
    rw [readReg_writeReg_self]; rfl
  · intro r hr; show (s.writeReg rd s.link).readReg r = _; simp [hr]

/-! Loads, stores, divisions: the two ends of each rule. -/

theorem exec_ld_ok {s : State} {rd rs1 : RegId} {imm : Word} (h : (s.readReg rs1 + imm).toNat % 8 = 0)
    (h2 : (s.readReg rs1 + imm).toNat < s.launch.memBytes) :
    exec (.ld rd rs1 imm) s = .next (s.retire rd (s.mem.readWord (s.readReg rs1 + imm).toNat)) := by
  show State.conclude s ((s.memRead (s.readReg rs1 + imm)).map _) = _
  rw [(memRead_ok_iff _ _ _).2 ⟨h, h2, rfl⟩]; rfl

theorem exec_ld_raise {s : State} {rd rs1 : RegId} {imm : Word} {f : FatalCondition}
    (h : s.memRead (s.readReg rs1 + imm) = .error f) : exec (.ld rd rs1 imm) s = .next (s.raise f) := by
  show State.conclude s ((s.memRead (s.readReg rs1 + imm)).map _) = _
  rw [h]; rfl

theorem exec_sd_ok {s : State} {rs1 rs2 : RegId} {imm : Word} (h : (s.readReg rs1 + imm).toNat % 8 = 0)
    (h2 : (s.readReg rs1 + imm).toNat < s.launch.memBytes) :
    exec (.sd rs1 rs2 imm) s =
      .next (State.advancePc { s with mem := s.mem.writeWord (s.readReg rs1 + imm).toNat (s.readReg rs2) }) := by
  show State.conclude s ((s.memWrite (s.readReg rs1 + imm) _).map _) = _
  rw [(memWrite_ok_iff _ _ _ _).2 ⟨h, h2, rfl⟩]; rfl

theorem exec_sd_raise {s : State} {rs1 rs2 : RegId} {imm : Word} {f : FatalCondition}
    (h : s.memWrite (s.readReg rs1 + imm) (s.readReg rs2) = .error f) :
    exec (.sd rs1 rs2 imm) s = .next (s.raise f) := by
  show State.conclude s ((s.memWrite (s.readReg rs1 + imm) _).map _) = _
  rw [h]; rfl

theorem quotient_eq (a b : Word) : quotient a b = a / b := by
  apply BitVec.eq_of_toNat_eq
  simp only [quotient, BitVec.toNat_ofNat, BitVec.toNat_udiv]
  exact Nat.mod_eq_of_lt (lt_of_le_of_lt (Nat.div_le_self _ _) a.isLt)

theorem remainder_eq (a b : Word) : remainder a b = a % b := by
  apply BitVec.eq_of_toNat_eq
  simp only [remainder, BitVec.toNat_ofNat, BitVec.toNat_umod]
  exact Nat.mod_eq_of_lt (lt_of_le_of_lt (Nat.mod_le _ _) a.isLt)

theorem exec_divu_ok {s : State} {rd rs1 rs2 : RegId} (h : s.readReg rs2 ≠ 0#64) :
    exec (.divu rd rs1 rs2) s = .next (s.retire rd (s.readReg rs1 / s.readReg rs2)) := by
  simp [exec, execDivu, State.checkDivisor, h, Except.map, quotient_eq]

theorem exec_remu_ok {s : State} {rd rs1 rs2 : RegId} (h : s.readReg rs2 ≠ 0#64) :
    exec (.remu rd rs1 rs2) s = .next (s.retire rd (s.readReg rs1 % s.readReg rs2)) := by
  simp [exec, execRemu, State.checkDivisor, h, Except.map, remainder_eq]

/-! Ecall. -/

/-- What well-formed parameters tell apart (00_scope.md R6). -/
theorem params_apart {p : Params} (h : Params.wf p = true) :
    p.regA0 ≠ 0#5 ∧ p.regSp ≠ 0#5 ∧ p.regSp ≠ p.regA0 ∧ p.sysWrite ≠ p.sysExit ∧ p.sysBrk ≠ p.sysExit ∧
    p.sysBrk ≠ p.sysWrite ∧ p.sysRead ≠ p.sysExit ∧ p.sysRead ≠ p.sysWrite ∧ p.sysRead ≠ p.sysBrk ∧
    p.sysOpenat ≠ p.sysExit ∧ p.sysOpenat ≠ p.sysWrite ∧ p.sysOpenat ≠ p.sysBrk := by
  simp [Params.wf] at h
  grind

/-- The dispatch. -/
theorem ecall_cases {s t : State} (h : exec .ecall s = .next t) :
    (s.a7 = s.launch.params.sysExit ∧ t = (callExit s).advancePc) ∨
    (s.a7 ≠ s.launch.params.sysExit ∧ s.a7 = s.launch.params.sysWrite ∧ t = callWrite s) ∨
    (s.a7 ≠ s.launch.params.sysExit ∧ s.a7 ≠ s.launch.params.sysWrite ∧ s.a7 = s.launch.params.sysBrk ∧
      t = callBrk s) ∨
    (s.a7 ≠ s.launch.params.sysExit ∧ s.a7 ≠ s.launch.params.sysWrite ∧ s.a7 ≠ s.launch.params.sysBrk ∧
      ∃ c, t = s.raise { cause := c, value := s.a7 }) := by
  simp only [exec, execEcall] at h
  split at h
  · exact .inl ⟨‹_›, (Host.Outcome.next.inj h).symm⟩
  · split at h
    · exact .inr (.inl ⟨‹_›, ‹_›, (Host.Outcome.next.inj h).symm⟩)
    · split at h
      · exact .inr (.inr (.inl ⟨‹_›, ‹_›, ‹_›, (Host.Outcome.next.inj h).symm⟩))
      · refine .inr (.inr (.inr ⟨‹_›, ‹_›, ‹_›, ?_⟩))
        split at h
        · exact ⟨_, (Host.Outcome.next.inj h).symm⟩
        · split at h <;> exact ⟨_, (Host.Outcome.next.inj h).symm⟩

/-- The ends of Write: raised after some of the chunks, or all emitted. -/
theorem write_cases (s : State) :
    (∃ f bs, callWrite s = (s.emit bs).raise f) ∨
    ∃ bs, callWrite s = ((s.emit bs).returnValue s.a2).advancePc := by
  unfold callWrite
  split
  · left; exact ⟨{ cause := .unsupportedFd, value := s.a0 }, [], by simp [State.emit]⟩
  · split
    · left; exact ⟨_, _, rfl⟩
    · right; exact ⟨_, rfl⟩

/-- The ends of Brk. -/
theorem brk_cases (s : State) :
    (∃ f, callBrk s = s.raise f) ∨
    (s.a0.toNat % 8 = 0 ∧ callBrk s =
      (({ s with programBreak := breakAfter s s.a0 } : State).returnValue (breakAfter s s.a0)).advancePc) := by
  unfold callBrk
  split
  · left; exact ⟨_, rfl⟩
  · right; exact ⟨by omega, rfl⟩

/-! The inversion of exec and of step. -/

/-- What a fatal condition leaves as it was (the register file but for what is unspecified, U3). -/
structure Raised (i : Instr) (s t : State) : Prop where
  status : t.status = .faulted
  launch : t.launch = s.launch
  mem : t.mem = s.mem
  programBreak : t.programBreak = s.programBreak
  slotZero : t.regs[0] = s.regs[0]
  stdout : t.stdout = s.stdout ∨ (i = .ecall ∧ s.a7 = s.launch.params.sysWrite ∧ ∃ bs, t.stdout = s.stdout ++ bs)

/-- Everything an instruction can do. -/
inductive Effect (i : Instr) (s t : State) : Prop where
  /-- It met a fatal condition. -/
  | raised (h : Raised i s t)
  /-- It wrote its one destination. -/
  | wrote (rd : RegId) (v : Word) (hd : destRegs i s = [rd]) (ht : t = { s.writeReg rd v with pc := nextPc i s })
      (hp : s.pc.toNat % 4 = 0 → t.pc.toNat % 4 = 0)
  /-- It changed the pc alone. -/
  | moved (hd : destRegs i s = []) (ht : t = { s with pc := nextPc i s })
      (hp : s.pc.toNat % 4 = 0 → t.pc.toNat % 4 = 0)
  /-- It stored a word. -/
  | stored (rs1 rs2 : RegId) (imm : Word) (hi : i = .sd rs1 rs2 imm) (h8 : (s.readReg rs1 + imm).toNat % 8 = 0)
      (hm : (s.readReg rs1 + imm).toNat < s.launch.memBytes)
      (ht : t = State.advancePc { s with mem := s.mem.writeWord (s.readReg rs1 + imm).toNat (s.readReg rs2) })
  /-- Exit. -/
  | exited (hi : i = .ecall) (hx : s.a7 = s.launch.params.sysExit) (ht : t = (callExit s).advancePc)
  /-- Write. -/
  | emitted (bs : List Byte) (hi : i = .ecall) (hx : s.a7 ≠ s.launch.params.sysExit)
      (hw : s.a7 = s.launch.params.sysWrite) (ht : t = ((s.emit bs).returnValue s.a2).advancePc)
  /-- Brk. -/
  | brk (hi : i = .ecall) (hx : s.a7 ≠ s.launch.params.sysExit) (hw : s.a7 ≠ s.launch.params.sysWrite)
      (hb : s.a7 = s.launch.params.sysBrk) (h8 : s.a0.toNat % 8 = 0)
      (ht : t = (({ s with programBreak := breakAfter s s.a0 } : State).returnValue (breakAfter s s.a0)).advancePc)

theorem effect_retire {i : Instr} {s t : State} (rd : RegId) (v : Word) (hd : destRegs i s = [rd])
    (hn : nextPc i s = s.pc + 4#64) (ht : t = s.retire rd v) : Effect i s t := by
  refine .wrote rd v hd (by rw [hn, ht]; simp [State.retire, State.advancePc]) ?_
  intro h; rw [ht]; simp; omega

theorem effect_raise {i : Instr} {s t : State} (f : FatalCondition) (ht : t = s.raise f) : Effect i s t := by
  subst ht; exact .raised ⟨rfl, rfl, rfl, rfl, rfl, .inl rfl⟩

theorem effect_link {i : Instr} {s t : State} (rd : RegId) (target : Word) (ht : t = linkAndJump rd target s)
    (hd : destRegs i s = [rd]) (hn : nextPc i s = target) : Effect i s t := by
  rcases linkAndJump_cases rd target s with ⟨h4, e⟩ | ⟨_, e⟩
  · exact .wrote rd _ hd (by rw [ht, e, hn]) fun _ => by rw [ht, e]; exact h4
  · exact .raised (by rw [ht, e]; exact ⟨by simp, by simp, by simp, by simp, by simp, .inl (by simp)⟩)

/-- The inversion: what is known of a next state, instruction by instruction. -/
theorem exec_effect {i : Instr} {s t : State} (h : exec i s = .next t) : Effect i s t := by
  cases i with
  | lui rd imm => exact effect_retire rd _ rfl rfl (Host.Outcome.next.inj h).symm
  | addi rd a imm => exact effect_retire rd _ rfl rfl (Host.Outcome.next.inj h).symm
  | add rd a b => exact effect_retire rd _ rfl rfl (Host.Outcome.next.inj h).symm
  | sub rd a b => exact effect_retire rd _ rfl rfl (Host.Outcome.next.inj h).symm
  | sltu rd a b => exact effect_retire rd _ rfl rfl (Host.Outcome.next.inj h).symm
  | mul rd a b => exact effect_retire rd _ rfl rfl (Host.Outcome.next.inj h).symm
  | jal rd imm => exact effect_link rd _ (Host.Outcome.next.inj h).symm rfl rfl
  | jalr rd a imm => exact effect_link rd _ (Host.Outcome.next.inj h).symm rfl rfl
  | divu rd a b =>
    rcases conclude_next h with h | ⟨f, _, h⟩
    · rcases checkDivisor_cases s (s.readReg b) with ⟨_, e⟩ | ⟨_, e⟩
      · simp [e, Except.map] at h
      · simp [e, Except.map] at h; exact effect_retire rd _ rfl rfl h.symm
    · exact effect_raise f h
  | remu rd a b =>
    rcases conclude_next h with h | ⟨f, _, h⟩
    · rcases checkDivisor_cases s (s.readReg b) with ⟨_, e⟩ | ⟨_, e⟩
      · simp [e, Except.map] at h
      · simp [e, Except.map] at h; exact effect_retire rd _ rfl rfl h.symm
    · exact effect_raise f h
  | ld rd a imm =>
    rcases conclude_next h with h | ⟨f, _, h⟩
    · cases e : s.memRead (s.baseDisp a imm) with
      | error f => simp [e, Except.map] at h
      | ok v => simp [e, Except.map] at h; exact effect_retire rd _ rfl rfl h.symm
    · exact effect_raise f h
  | sd a b imm =>
    rcases conclude_next h with h | ⟨f, _, h⟩
    · cases e : s.memWrite (s.baseDisp a imm) (s.readReg b) with
      | error f => simp [e, Except.map] at h
      | ok v =>
        obtain ⟨h1, h2, rfl⟩ := (memWrite_ok_iff _ _ _ _).1 e
        simp [e, Except.map] at h
        exact .stored a b imm rfl h1 h2 h.symm
    · exact effect_raise f h
  | beq a b imm =>
    simp only [exec, execBeq, State.equalRegs, beq_iff_eq] at h
    split at h
    · rename_i he
      rcases conclude_next h with h | ⟨f, _, h⟩
      · rcases jumpPc_cases s (s.pcRelative imm) with ⟨h4, e⟩ | ⟨_, e⟩
        · rw [e] at h
          have := (Except.ok.inj h).symm
          exact .moved rfl (by rw [this]; simp [nextPc, he]; rfl) fun _ => by rw [this]; exact h4
        · rw [e] at h; simp at h
      · exact effect_raise f h
    · rename_i he
      have := (Host.Outcome.next.inj h).symm
      refine .moved rfl (by rw [this]; simp [nextPc, he]; rfl) ?_
      intro h4; rw [this]; simp; omega
  | ecall =>
    rcases ecall_cases h with ⟨e, h⟩ | ⟨e0, e, h⟩ | ⟨e0, e1, e, h⟩ | ⟨_, _, _, c, h⟩
    · exact .exited rfl e h
    · rcases write_cases s with ⟨f, bs, e2⟩ | ⟨bs, e2⟩
      · refine .raised ?_
        rw [h, e2]
        exact ⟨rfl, rfl, rfl, rfl, rfl, .inr ⟨rfl, e, bs, rfl⟩⟩
      · exact .emitted bs rfl e0 e (h.trans e2)
    · rcases brk_cases s with ⟨f, e2⟩ | ⟨h8, e2⟩
      · exact effect_raise f (h.trans e2)
      · exact .brk rfl e0 e1 e h8 (h.trans e2)
    · exact effect_raise _ h

/-- The inversion of a step: a fetch that raised, or a fetched record executed. -/
theorem step_cases {s t : State} (h : step s = .next t) :
    s.status = .running ∧
    ((∃ f, fetch s.launch s.pc = .error f ∧ t = s.raise f) ∨
      ∃ i, fetch s.launch s.pc = .ok i ∧ exec i s = .next t) := by
  unfold step at h
  split at h
  · simp at h
  · simp at h
  · rename_i hs
    refine ⟨hs, ?_⟩
    split at h
    · rename_i f e; exact .inl ⟨f, e, (Host.Outcome.next.inj h).symm⟩
    · rename_i i e; exact .inr ⟨i, e, h⟩

end Sys2Proof.Machine
end

