-- ==== Sys2Proof/Laws/PerInstr.lean ====
section
/-! SUPPORT. What holds of every instruction as syntax, one lemma per constructor. -/

namespace Sys2Proof.Laws.EncodeMatchesRow

/-- The word of a record is one of its row's words (30_encoding.md R56, R63). -/
def Statement (i : Instr) : Prop := encode i &&& i.opcode.mask = i.opcode.pattern

theorem lui (rd : RegId) (imm : Word) : Statement (.lui rd imm) := by
  apply BitVec.eq_of_getLsbD_eq
  intro i hi
  simp only [encode, encodeU, Instr.opcode, Opcode.mask, Opcode.pattern, opcodeField,
    BitVec.getLsbD_and]
  interval_cases i <;> simp only [BitVec.getLsbD_append] <;> simp

theorem jal (rd : RegId) (imm : Word) : Statement (.jal rd imm) := by
  apply BitVec.eq_of_getLsbD_eq
  intro i hi
  simp only [encode, encodeJ, Instr.opcode, Opcode.mask, Opcode.pattern, opcodeField,
    BitVec.getLsbD_and]
  interval_cases i <;> simp only [BitVec.getLsbD_append] <;> simp

theorem jalr (rd rs1 : RegId) (imm : Word) : Statement (.jalr rd rs1 imm) := by
  apply BitVec.eq_of_getLsbD_eq
  intro i hi
  simp only [encode, encodeI, Instr.opcode, Opcode.mask, Opcode.pattern, funct3Field, opcodeField,
    BitVec.getLsbD_and]
  interval_cases i <;> simp only [BitVec.getLsbD_append] <;> simp

theorem beq (rs1 rs2 : RegId) (imm : Word) : Statement (.beq rs1 rs2 imm) := by
  apply BitVec.eq_of_getLsbD_eq
  intro i hi
  simp only [encode, encodeB, Instr.opcode, Opcode.mask, Opcode.pattern, funct3Field, opcodeField,
    BitVec.getLsbD_and]
  interval_cases i <;> simp only [BitVec.getLsbD_append] <;> simp

theorem ld (rd rs1 : RegId) (imm : Word) : Statement (.ld rd rs1 imm) := by
  apply BitVec.eq_of_getLsbD_eq
  intro i hi
  simp only [encode, encodeI, Instr.opcode, Opcode.mask, Opcode.pattern, funct3Field, opcodeField,
    BitVec.getLsbD_and]
  interval_cases i <;> simp only [BitVec.getLsbD_append] <;> simp

theorem sd (rs1 rs2 : RegId) (imm : Word) : Statement (.sd rs1 rs2 imm) := by
  apply BitVec.eq_of_getLsbD_eq
  intro i hi
  simp only [encode, encodeS, Instr.opcode, Opcode.mask, Opcode.pattern, funct3Field, opcodeField,
    BitVec.getLsbD_and]
  interval_cases i <;> simp only [BitVec.getLsbD_append] <;> simp

theorem addi (rd rs1 : RegId) (imm : Word) : Statement (.addi rd rs1 imm) := by
  apply BitVec.eq_of_getLsbD_eq
  intro i hi
  simp only [encode, encodeI, Instr.opcode, Opcode.mask, Opcode.pattern, funct3Field, opcodeField,
    BitVec.getLsbD_and]
  interval_cases i <;> simp only [BitVec.getLsbD_append] <;> simp

theorem add (rd rs1 rs2 : RegId) : Statement (.add rd rs1 rs2) := by
  apply BitVec.eq_of_getLsbD_eq
  intro i hi
  simp only [encode, encodeR, Instr.opcode, Opcode.mask, Opcode.pattern, funct7Field, funct3Field, opcodeField,
    BitVec.getLsbD_and]
  interval_cases i <;> simp only [BitVec.getLsbD_append] <;> simp

theorem sub (rd rs1 rs2 : RegId) : Statement (.sub rd rs1 rs2) := by
  apply BitVec.eq_of_getLsbD_eq
  intro i hi
  simp only [encode, encodeR, Instr.opcode, Opcode.mask, Opcode.pattern, funct7Field, funct3Field, opcodeField,
    BitVec.getLsbD_and]
  interval_cases i <;> simp only [BitVec.getLsbD_append] <;> simp

theorem sltu (rd rs1 rs2 : RegId) : Statement (.sltu rd rs1 rs2) := by
  apply BitVec.eq_of_getLsbD_eq
  intro i hi
  simp only [encode, encodeR, Instr.opcode, Opcode.mask, Opcode.pattern, funct7Field, funct3Field, opcodeField,
    BitVec.getLsbD_and]
  interval_cases i <;> simp only [BitVec.getLsbD_append] <;> simp

theorem mul (rd rs1 rs2 : RegId) : Statement (.mul rd rs1 rs2) := by
  apply BitVec.eq_of_getLsbD_eq
  intro i hi
  simp only [encode, encodeR, Instr.opcode, Opcode.mask, Opcode.pattern, funct7Field, funct3Field, opcodeField,
    BitVec.getLsbD_and]
  interval_cases i <;> simp only [BitVec.getLsbD_append] <;> simp

theorem divu (rd rs1 rs2 : RegId) : Statement (.divu rd rs1 rs2) := by
  apply BitVec.eq_of_getLsbD_eq
  intro i hi
  simp only [encode, encodeR, Instr.opcode, Opcode.mask, Opcode.pattern, funct7Field, funct3Field, opcodeField,
    BitVec.getLsbD_and]
  interval_cases i <;> simp only [BitVec.getLsbD_append] <;> simp

theorem remu (rd rs1 rs2 : RegId) : Statement (.remu rd rs1 rs2) := by
  apply BitVec.eq_of_getLsbD_eq
  intro i hi
  simp only [encode, encodeR, Instr.opcode, Opcode.mask, Opcode.pattern, funct7Field, funct3Field, opcodeField,
    BitVec.getLsbD_and]
  interval_cases i <;> simp only [BitVec.getLsbD_append] <;> simp

theorem ecall : Statement .ecall := by rfl

end Sys2Proof.Laws.EncodeMatchesRow
end

