-- ==== Sys2Proof/Tests/Slice0.lean ====
section
/-! SUPPORT. The model's own tests. Words, start states and results come from spec/95_test_vectors.md (section in each
comment) and from the rules, never from the model. First the checks of WellFormed, then decoding, one step of each
instruction, reset; last, a witness for the hypotheses of each statement. -/

namespace Sys2Proof.Tests

open Sys2Proof Sys2Proof.Machine

/-! ### Helpers -/

/-- A Running state with 0x4000 bytes of memory, a program break of 0x2000, the registers given, and a pc. -/
def bench (regs : List (RegId × Word)) (pc : Word := 0x10000) (mem : List (Nat × Word) := []) : State :=
  let s : State := { State.reset with
    launch := { Launch.default with memBytes := 0x4000 }, programBreak := 0x2000, pc := pc
    mem := mem.foldl (fun m c => m.writeWord c.1 c.2) [] }
  regs.foldl (fun s c => s.writeReg c.1 c.2) s

/-- A state whose next fetch is the word given: one word at CODE_BASE = pc. -/
def loaded (w : Nat) (regs : List (RegId × Word)) (pc : Word := 0x10000) (mem : List (Nat × Word) := []) : State :=
  (bench regs pc mem).withFetchWord 32 w

/-- What is read of the state after one step. -/
def after {α : Type} (s : State) (f : State → α) : Option α :=
  match step s with
  | .next t => some (f t)
  | .fault _ => none
  | .refused _ => none

/-- The status and the fatal condition after one step. -/
def fatal (s : State) : Option (Status × FatalCondition) := after s fun t => (t.status, t.faultCause)

/-! ### WellFormed: each check refuses an ill-formed term (30_encoding.md R53) -/

theorem test_wf_lui_above : (Instr.lui 5 524288).wf = false := by decide
theorem test_wf_lui_below : (Instr.lui 5 (-524289)).wf = false := by decide
theorem test_wf_jal_above : (Instr.jal 1 1048576).wf = false := by decide
theorem test_wf_jal_below : (Instr.jal 1 (-1048578)).wf = false := by decide
theorem test_wf_jal_odd : (Instr.jal 1 3).wf = false := by decide
theorem test_wf_jalr : (Instr.jalr 0 1 2048).wf = false ∧ (Instr.jalr 0 1 (-2049)).wf = false := by decide
theorem test_wf_beq_above : (Instr.beq 6 7 4096).wf = false := by decide
theorem test_wf_beq_below : (Instr.beq 6 7 (-4098)).wf = false := by decide
theorem test_wf_beq_odd : (Instr.beq 6 7 5).wf = false := by decide
theorem test_wf_ld : (Instr.ld 5 11 2048).wf = false ∧ (Instr.ld 5 11 (-2049)).wf = false := by decide
theorem test_wf_sd : (Instr.sd 2 5 2048).wf = false ∧ (Instr.sd 2 5 (-2049)).wf = false := by decide
theorem test_wf_addi : (Instr.addi 5 0 2048).wf = false ∧ (Instr.addi 5 0 (-2049)).wf = false := by decide

/-! ### Decoding: one word of each constructor, written out field by field from R54 to R56 -/

/-- imm20 = 0x12345, rd = 10, 0110111. -/
theorem test_decode_lui : decodeWord 0b00010010001101000101_01010_0110111 = some (.lui 10 0x12345) := by decide
/-- Bit 31 the sign, then 10:1, 11, 19:12: the offset −12 (sections 2.2, E3). -/
theorem test_decode_jal : decodeWord 0b1_1111111010_1_11111111_00000_1101111 = some (.jal 0 (-12)) := by decide
/-- imm = 0x123, rs1 = 7, 000, rd = 9, 1100111. -/
theorem test_decode_jalr : decodeWord 0b000100100011_00111_000_01001_1100111 = some (.jalr 9 7 0x123) := by decide
/-- imm[12] = 0, imm[10:5] = 111111, rs2 = 2, rs1 = 1, 000, imm[4:1] = 1111, imm[11] = 1: 4094 (section 2.2). -/
theorem test_decode_beq : decodeWord 0b0_111111_00010_00001_000_1111_1_1100011 = some (.beq 1 2 4094) := by decide
/-- imm = 8, rs1 = 11, 011, rd = 5 (section 2.3). -/
theorem test_decode_ld : decodeWord 0b000000001000_01011_011_00101_0000011 = some (.ld 5 11 8) := by decide
/-- imm[11:5] = 1111111, rs2 = 5, rs1 = 2, 011, imm[4:0] = 11000: −8 (section 2.3). -/
theorem test_decode_sd : decodeWord 0b1111111_00101_00010_011_11000_0100011 = some (.sd 2 5 (-8)) := by decide
/-- imm = −2048, rs1 = 0, rd = 5 (section 2.4). -/
theorem test_decode_addi : decodeWord 0b100000000000_00000_000_00101_0010011 = some (.addi 5 0 (-2048)) := by decide
theorem test_decode_add : decodeWord 0b0000000_00011_00010_000_00001_0110011 = some (.add 1 2 3) := by decide
theorem test_decode_sub : decodeWord 0b0100000_00011_00010_000_00001_0110011 = some (.sub 1 2 3) := by decide
theorem test_decode_sltu : decodeWord 0b0000000_00011_00010_011_00001_0110011 = some (.sltu 1 2 3) := by decide
theorem test_decode_mul : decodeWord 0b0000001_00011_00010_000_00001_0110011 = some (.mul 1 2 3) := by decide
theorem test_decode_divu : decodeWord 0b0000001_00011_00010_101_00001_0110011 = some (.divu 1 2 3) := by decide
theorem test_decode_remu : decodeWord 0b0000001_00011_00010_111_00001_0110011 = some (.remu 1 2 3) := by decide
theorem test_decode_ecall : decodeWord 0b000000000000_00000_000_00000_1110011 = some .ecall := by decide

/-- The words section 2.7 lists as no instruction. -/
theorem test_decode_illegal :
    [0x00100073, 0x00000000, 0xFFFFFFFF, 0x0000100F, 0x00001013, 0x00002003, 0x02004033, 0x40005033, 0x00001063,
      0x00001067, 0x00000017].map (decodeWord ·) = List.replicate 11 none := by rfl

/-- Bytes in address order, the least significant first (R42), and what is left of them. -/
theorem test_decode_bytes :
    decodeBytes [0x83, 0xB2, 0x85, 0x00, 0x55] = .ok (.ld 5 11 8, [0x55]) ∧
    decodeBytes [0x83, 0xB2, 0x85] = .error .tooShort ∧
    decodeBytes [0x73, 0x00, 0x10, 0x00] = .error (.illegalWord 0x00100073) := by decide

theorem test_decode_table_word : decodeTableWord 32 0xFE513C23 = some (.sd 2 5 (-8)) := by decide

/-- Listings of section 3, P2 and P1. -/
theorem test_assemble :
    assemble (.lui 11 1) = some (.lui 11 1) ∧ assemble (.lui 5 1048575) = some (.lui 5 (-1)) ∧
    assemble (.sd 5 (-8) 2) = some (.sd 2 5 (-8)) ∧ assemble (.jal 0 (-12)) = some (.jal 0 (-12)) ∧
    assemble (.addi 5 0 2048) = none ∧ assemble (.beq 6 7 15) = none := by decide

theorem test_register_names :
    registerNamed {} "zero" = some 0 ∧ registerNamed {} "a7" = some 17 ∧ registerNamed {} "x31" = some 31 ∧
    registerNamed {} "x32" = none ∧ registerNamed {} "ra" = none := by
  simp [registerNamed, registerNumbers, List.findIdx?_cons]

/-! ### One step of each instruction -/

/-- 2.1: bit 31 extends. -/
theorem test_lui : after (loaded 0x800002B7 []) (fun t => (t.readReg 5, t.pc)) = some (0xFFFFFFFF80000000, 0x10004) := by
  decide
theorem test_lui_zero : after (loaded 0x00001037 []) (fun t => (t.regs, t.pc)) = some ((bench []).regs, 0x10004) := by
  decide

/-- 2.2. -/
theorem test_jal : after (loaded 0x800000EF [] 0x200000) (fun t => (t.readReg 1, t.pc)) = some (0x200004, 0x100000) := by
  decide
theorem test_jal_misaligned : fatal (loaded 0x006000EF []) = some (.faulted, ⟨.misalignedPC, 0x10006⟩) := by decide
theorem test_jalr_same_register :
    after (loaded 0x000080E7 [(1, 0x10040)]) (fun t => (t.readReg 1, t.pc)) = some (0x10004, 0x10040) := by decide
theorem test_jalr_keeps_bit0 : fatal (loaded 0x00128067 [(5, 0x10010)]) = some (.faulted, ⟨.misalignedPC, 0x10011⟩) := by
  decide
theorem test_beq_taken : after (loaded 0x00730863 [(6, 11), (7, 11)] 0x1000C) State.pc = some 0x1001C := by decide
theorem test_beq_all_64_bits : after (loaded 0x00730863 [(6, 0x100000000)] 0x1000C) State.pc = some 0x10010 := by decide

/-- 2.3: an odd offset with an odd base; alignment before range. -/
theorem test_ld : after (loaded 0x7FFFBF83 [(31, 0x1001)] 0x10000 [(0x1800, 0x0807060504030201)])
    (fun t => (t.readReg 31, t.pc)) = some (0x0807060504030201, 0x10004) := by decide
theorem test_ld_zero_raises : fatal (loaded 0x00013003 [(2, 0x4000)]) = some (.faulted, ⟨.memOutOfRange, 0x4000⟩) := by
  decide
theorem test_sd : after (loaded 0x81FFB023 [(31, 0x1800)]) (fun t => (t.mem.readWord 0x1000, t.mem.readByte 0x1001)) =
    some (0x1800, 0x18) := by decide
theorem test_sd_alignment_first : fatal (loaded 0x00533023 [(6, 0x4004)]) = some (.faulted, ⟨.misalignedData, 0x4004⟩) := by
  decide

/-- 2.4: wraps; rs1 minus rs2; unsigned. -/
theorem test_addi_wraps : after (loaded 0x00128293 [(5, 0xFFFFFFFFFFFFFFFF)]) (fun t => (t.readReg 5, t.pc)) =
    some (0, 0x10004) := by decide
theorem test_addi_negative : after (loaded 0x80000293 []) (·.readReg 5) = some 0xFFFFFFFFFFFFF800 := by decide
theorem test_add_carry_lost : after (loaded 0x006282B3 [(5, 0x123456789ABCDEF0), (6, 0xFEDCBA9876543210)])
    (·.readReg 5) = some 0x1111111111111100 := by decide
theorem test_sub_order : after (loaded 0x406283B3 [(5, 0x123456789ABCDEF0), (6, 0xFEDCBA9876543210)])
    (·.readReg 7) = some 0x13579BE02468ACE0 := by decide
theorem test_sltu_unsigned : after (loaded 0x005336B3 [(6, 0xFFFFFFFFFFFFFFFF), (5, 1)]) (·.readReg 13) = some 0 := by
  decide
theorem test_sltu_less : after (loaded 0x005336B3 [(6, 7), (5, 100)]) (·.readReg 13) = some 1 := by decide

/-- 2.5. -/
theorem test_mul : after (loaded 0x026282B3 [(5, 0x123456789ABCDEF0), (6, 0x0FEDCBA987654321)]) (·.readReg 5) =
    some 0x2236D88FE5618CF0 := by decide
theorem test_divu : after (loaded 0x0262D533 [(5, 0x123456789ABCDEF0), (6, 0x12345)]) (·.readReg 10) =
    some 0x0000100005B00205 := by decide
theorem test_divu_zero_to_x0 : fatal (loaded 0x0262D033 [(5, 1)] 0x10004) = some (.faulted, ⟨.divideByZero, 0x10004⟩) := by
  decide
theorem test_remu : after (loaded 0x0262F5B3 [(5, 0x123456789ABCDEF0), (6, 0x12345)]) (·.readReg 11) = some 0xA497 := by
  decide
theorem test_remu_zero : fatal (loaded 0x0262F5B3 [(5, 9)]) = some (.faulted, ⟨.divideByZero, 0x10000⟩) := by decide

/-- 2.6. -/
theorem test_exit : after (loaded 0x00000073 [(17, 93), (10, 0xFFFFFFFFFFFFFFFF)])
    (fun t => (t.status, t.exitCode, t.pc)) = some (.halted, 0xFFFFFFFFFFFFFFFF, 0x10004) := by decide
theorem test_write_partial_chunk : after (loaded 0x00000073 [(17, 64), (10, 1), (11, 0x1000), (12, 14)] 0x10000
      [(0x1000, 0x77202C6F6C6C6548), (0x1008, 0x00000A21646C726F)]) (fun t => (t.stdout, t.readReg 10, t.pc)) =
    some ([0x48, 0x65, 0x6C, 0x6C, 0x6F, 0x2C, 0x20, 0x77, 0x6F, 0x72, 0x6C, 0x64, 0x21, 0x0A], 14, 0x10004) := by decide
theorem test_write_nothing : after (loaded 0x00000073 [(17, 64), (10, 1), (11, 0x1004), (12, 0)])
    (fun t => (t.status, t.stdout, t.readReg 10)) = some (.running, [], 0) := by decide
theorem test_write_second_chunk : fatal (loaded 0x00000073 [(17, 64), (10, 1), (11, 0x3FF8), (12, 9)]) =
    some (.faulted, ⟨.memOutOfRange, 0x4000⟩) := by decide
theorem test_write_descriptor_first : fatal (loaded 0x00000073 [(17, 64), (10, 0x100000001)]) =
    some (.faulted, ⟨.unsupportedFd, 0x100000001⟩) := by decide
theorem test_brk_highest : after (loaded 0x00000073 [(17, 214), (10, 0x3FE0), (2, 0x3FE8)])
    (fun t => (t.programBreak, t.readReg 10)) = some (0x3FE0, 0x3FE0) := by decide
theorem test_brk_at_sp : after (loaded 0x00000073 [(17, 214), (10, 0x3FE8), (2, 0x3FE8)])
    (fun t => (t.programBreak, t.readReg 10)) = some (0x2000, 0x2000) := by decide
theorem test_brk_misaligned : fatal (loaded 0x00000073 [(17, 214), (10, 0x2004), (2, 0x3FE8)]) =
    some (.faulted, ⟨.misalignedBreak, 0x2004⟩) := by decide
theorem test_read_unsupported : fatal (loaded 0x00000073 [(17, 63)]) = some (.faulted, ⟨.unsupportedSyscall, 63⟩) := by
  decide
theorem test_unknown_call : fatal (loaded 0x00000073 [(17, 0x10000005D)]) =
    some (.faulted, ⟨.unknownSyscall, 0x10000005D⟩) := by decide

/-- 2.7: off the end, below the base, misaligned, an illegal word. -/
theorem test_fetch_off_the_end : fatal { loaded 0x00000013 [] with pc := 0x10004 } =
    some (.faulted, ⟨.fetchOutOfRange, 0x10004⟩) := by decide
theorem test_fetch_below : fatal { loaded 0x00000013 [] with pc := 0xFFFC } =
    some (.faulted, ⟨.fetchOutOfRange, 0xFFFC⟩) := by decide
theorem test_fetch_misaligned : fatal { loaded 0x00000013 [] with pc := 0x10002 } =
    some (.faulted, ⟨.misalignedPC, 0x10002⟩) := by decide
theorem test_fetch_illegal : fatal (loaded 0x00100073 []) = some (.faulted, ⟨.illegalInstruction, 0x00100073⟩) := by decide

/-! ### Reset (2.8) -/

/-- The launch of the row ["prog", "12345678"]. -/
def twoArguments : Launch :=
  { Launch.default with memBytes := 0x2000
                        argv := [[0x70, 0x72, 0x6F, 0x67], [0x31, 0x32, 0x33, 0x34, 0x35, 0x36, 0x37, 0x38]] }

/-- What is read of a booted state. -/
def booted {α : Type} (l : Launch) (f : State → α) : Option α :=
  match boot l with
  | .next s => some (f s)
  | .fault _ => none
  | .refused _ => none

theorem test_boot_arguments :
    booted twoArguments (fun s => (s.sp, [0x1FC0, 0x1FC8, 0x1FD0, 0x1FD8, 0x1FE0, 0x1FE8, 0x1FF0, 0x1FF8].map s.mem.readWord))
      = some (0x1FC0, [2, 0x1FE8, 0x1FF0, 0, 0, 0x676F7270, 0x3837363534333231, 0]) := by decide

theorem test_boot_break :
    booted { Launch.default with memBytes := 0x4000, dataBase := 0x1000, data := [1, 2, 3] }
      (fun s => (s.programBreak, s.mem.readWord 0x1010, s.sp)) = some (0x2000, 3, 0x3FE8) := by decide

/-! ### Witnesses: for each statement with hypotheses, values that meet all of them, clause by clause, at the boundaries -/

theorem witness_OpcodeMapIsUnambiguous :
    0x00000293#32 &&& Opcode.addi.mask = Opcode.addi.pattern ∧
    ∀ op : Opcode, 0x00100073#32 &&& op.mask ≠ op.pattern := by
  refine ⟨by decide, fun op => ?_⟩
  cases op <;> decide

theorem witness_DecodeOfEncodeIsTheRecord :
    ([.addi 31 31 2047, .jalr 0 1 (-2048), .ld 5 11 (-2048), .sd 2 5 2047, .beq 1 2 4094, .beq 1 2 (-4096),
      .lui 5 524287, .lui 5 (-524288), .jal 1 1048574, .jal 1 (-1048576), .remu 31 0 31, .ecall] : List Instr).all
      Instr.wf = true := by decide

theorem witness_EncodeOfDecodeIsTheWord : decodeWord 0xFFFFFFEF = some (.jal 31 (-2)) := by decide

theorem witness_WorkedWordsEncodeAndDecode : (Instr.jal 0 3).wf = false := by decide

theorem witness_ImageBytesDecodeLittleEndian :
    decodeWord ((0x00 : Byte) ++ (0x00 : Byte) ++ (0x15 : Byte) ++ (0xB7 : Byte)) = some (.lui 11 1) := by decide

theorem witness_AssembleInvertsDisassemble :
    (Instr.lui 5 (-524288)).wf = true ∧ assemble (.lui 5 524288) = some (.lui 5 (-524288)) := by decide

/-- A launch of four words at 0x10000 (2.7): the last word, the first place after it, below the base, misaligned. -/
def fourWords : Launch := { Launch.default with code := [0x13, 0x13, 0x13, 0x73] }

theorem witness_FetchTestsAlignmentThenRange :
    (0x10002#64).toNat % 4 ≠ 0 ∧
    ((0x10010#64).toNat % 4 = 0 ∧ fourWords.code.length ≤ (0x10010#64 - fourWords.codeBase).toNat / 4) ∧
    (fourWords.code[(0x1000C#64 - fourWords.codeBase).toNat / 4]? = some 0x73 ∧ decodeWord 0x73 = some .ecall) ∧
    (fourWords.codeBase.toNat + 4 * fourWords.code.length ≤ 2 ^ 64 ∧ (0xFFFC#64).toNat < fourWords.codeBase.toNat) := by
  decide

theorem witness_StepRunsTheFetchedRecord :
    let s := { State.reset with launch := fourWords, pc := 0x1000C }
    s.status = .running ∧ s.pc.toNat % 4 = 0 ∧
    s.launch.code[(s.pc - s.launch.codeBase).toNat / 4]? = some 0x73 ∧ decodeWord 0x73 = some .ecall := by decide

theorem witness_StepTakesTheFetchFault :
    let s := { State.reset with launch := fourWords, pc := 0x10002 }
    let t := { State.reset with launch := fourWords, pc := 0x10010 }
    (s.status = .running ∧ s.pc.toNat % 4 ≠ 0) ∧
    (t.status = .running ∧ t.pc.toNat % 4 = 0 ∧ t.launch.code.length ≤ (t.pc - t.launch.codeBase).toNat / 4) := by
  decide

theorem witness_IllegalWordRaisesWhenFetched :
    (let s := loaded 0x00100073 []
     s.status = .running ∧ s.pc.toNat % 4 = 0 ∧
     s.launch.code[(s.pc - s.launch.codeBase).toNat / 4]? = some 0x00100073) ∧
    ∀ op : Opcode, 0x00100073#32 &&& op.mask ≠ op.pattern := by
  refine ⟨by decide, fun op => ?_⟩
  cases op <;> decide

theorem witness_CoreStepsExactlyWhileRunning :
    (bench []).status = .running ∧ ({ bench [] with status := .halted } : State).status ≠ .running ∧
    ({ bench [] with status := .faulted } : State).status ≠ .running := by decide

theorem witness_PlacedWordIsRunNext :
    decodeWord 0x00000073 = some .ecall ∧ (bench []).status = .running ∧ (bench []).pc.toNat % 4 = 0 := by decide

theorem witness_RegisterZeroIsHardWired : (31#5 : RegId) ≠ 0#5 := by decide

theorem witness_AdvancePcWrapsAndStaysAligned :
    (bench [] 0xFFFFFFFFFFFFFFFC).pc = 0xFFFFFFFFFFFFFFFC ∧ (bench [] 0xFFFFFFFFFFFFFFFC).pc.toNat % 4 = 0 := by decide

theorem witness_JumpPcNeedsAlignedTarget : (0xFFFFFFFFFFFFFFFC#64).toNat % 4 = 0 ∧ (0x10002#64).toNat % 4 ≠ 0 := by decide

/-- The highest word, the first address outside, and an address misaligned and outside at once. -/
theorem witness_MemReadTestsThenReadsLittleEndian :
    ((0x3FF8#64).toNat % 8 = 0 ∧ (0x3FF8#64).toNat < (bench []).launch.memBytes) ∧
    ((0x4000#64).toNat % 8 = 0 ∧ (bench []).launch.memBytes ≤ (0x4000#64).toNat) ∧ (0x4004#64).toNat % 8 ≠ 0 := by decide

theorem witness_MemWriteReplacesOneWord :
    ((0#64).toNat % 8 = 0 ∧ (0#64).toNat < (bench []).launch.memBytes) ∧
    ((0xFFFFFFFFFFFFFFF8#64).toNat % 8 = 0 ∧ (bench []).launch.memBytes ≤ (0xFFFFFFFFFFFFFFF8#64).toNat) ∧
    (0x3FFC#64).toNat % 8 ≠ 0 := by decide

/-- The same address, and the one just above it. -/
theorem witness_LoadSeesTheLastStore :
    let s := bench [(2, 0x3FF0), (5, 7)]
    ∃ t, exec (.sd 2 5 0) s = .next t ∧ t.status = .running ∧ (6#5 : RegId) ≠ 0#5 ∧
      ((s.readReg 2 + 0).toNat % 8 = 0 ∧ (s.readReg 2 + 0).toNat < s.launch.memBytes ∧
        s.readReg 2 + 0 = s.readReg 2 + 0) ∧
      ((s.readReg 2 + 8).toNat % 8 = 0 ∧ (s.readReg 2 + 8).toNat < s.launch.memBytes ∧
        s.readReg 2 + 8 ≠ s.readReg 2 + 0) :=
  ⟨_, rfl, by decide⟩

theorem witness_LuiWritesUpperImmediate :
    0x800002B7#32 &&& 0x0000007F = 0x00000037 ∧
    (0x80000#64).extractLsb' 0 20 = (-0x80000#64).extractLsb' 0 20 ∧ immFits20 (-0x80000#64) := by decide

theorem witness_JalLinksAndJumps :
    0x018000EF#32 &&& 0x0000007F = 0x0000006F ∧ ((bench [] 0x10020).pc + 24).toNat % 4 = 0 ∧
    ((bench []).pc + 1048574).toNat % 4 ≠ 0 := by decide

theorem witness_JalrLinksAndJumps :
    0x00008067#32 &&& 0x0000707F = 0x00000067 ∧ ((bench []).readReg 0 + (-4)).toNat % 4 = 0 ∧
    ((bench [(5, 0x10010)]).readReg 5 + 1).toNat % 4 ≠ 0 := by decide

theorem witness_BeqBranchesOnEquality :
    let s := bench [(6, 11), (7, 11), (8, 0x10000000B)]
    0x00730863#32 &&& 0x0000707F = 0x00000063 ∧
    (s.readReg 6 = s.readReg 7 ∧ (s.pc + 16).toNat % 4 = 0) ∧ s.readReg 6 ≠ s.readReg 8 ∧
    (s.readReg 6 = s.readReg 7 ∧ (s.pc + 4094).toNat % 4 ≠ 0) := by decide

/-- Sections 2.3: the last word, the first address outside, a wrapped address, a misaligned one. -/
theorem witness_LdLoadsTheWord :
    let s := bench [(6, 0x4000)]
    0x0085B283#32 &&& 0x0000707F = 0x00003003 ∧
    ((s.readReg 6 + (-8)).toNat % 8 = 0 ∧ (s.readReg 6 + (-8)).toNat < s.launch.memBytes) ∧
    (s.readReg 6 + 4).toNat % 8 ≠ 0 ∧
    ((s.readReg 6 + 0).toNat % 8 = 0 ∧ s.launch.memBytes ≤ (s.readReg 6 + 0).toNat) ∧
    ((s.readReg 0 + (-8)).toNat % 8 = 0 ∧ s.launch.memBytes ≤ (s.readReg 0 + (-8)).toNat) := by decide

theorem witness_SdStoresTheWord :
    let s := bench [(6, 0x4000)]
    0xFE513C23#32 &&& 0x0000707F = 0x00003023 ∧
    ((s.readReg 6 + (-8)).toNat % 8 = 0 ∧ (s.readReg 6 + (-8)).toNat < s.launch.memBytes) ∧
    (s.readReg 6 + 4).toNat % 8 ≠ 0 ∧
    ((s.readReg 6 + 0).toNat % 8 = 0 ∧ s.launch.memBytes ≤ (s.readReg 6 + 0).toNat) := by decide

/-- For Addi, Add, Sub, Sltu and Mul, whose one hypothesis is on the word. -/
theorem witness_register_words :
    0x00500513#32 &&& 0x0000707F = 0x00000013 ∧ 0x006282B3#32 &&& 0xFE00707F = 0x00000033 ∧
    0x40628533#32 &&& 0xFE00707F = 0x40000033 ∧ 0x005336B3#32 &&& 0xFE00707F = 0x00003033 ∧
    0x02650633#32 &&& 0xFE00707F = 0x02000033 := by decide

theorem witness_DivuWritesQuotient :
    0x0262D533#32 &&& 0xFE00707F = 0x02005033 ∧ (bench [(6, 1)]).readReg 6 ≠ 0#64 ∧ (bench []).readReg 0 = 0#64 := by decide

theorem witness_RemuWritesRemainder :
    0x0262F5B3#32 &&& 0xFE00707F = 0x02007033 ∧ (bench [(6, 1)]).readReg 6 ≠ 0#64 ∧ (bench []).readReg 0 = 0#64 := by decide

theorem witness_SubUndoesAdd : (7#5 : RegId) ≠ 0#5 ∧ (7#5 : RegId) ≠ 6#5 := by decide

theorem witness_QuotientAndRemainderRebuildDividend :
    (10#5 : RegId) ≠ 0#5 ∧ (11#5 : RegId) ≠ 0#5 ∧ (10#5 : RegId) ≠ 11#5 ∧ (10#5 : RegId) ≠ 5#5 ∧ (10#5 : RegId) ≠ 6#5 ∧
    (bench [(5, 0xFFFFFFFFFFFFFFFF), (6, 10)]).readReg 6 ≠ 0#64 := by decide

theorem witness_ExitHaltsWithA0 :
    let s := bench [(17, 93)]
    s.a7 = s.launch.params.sysExit := by decide

/-- An empty Write from a misaligned buffer, and one that ends at the last byte of memory. -/
theorem witness_WriteAppendsTheBuffer :
    (let s := bench [(17, 64), (10, 1), (11, 0x1004)]
     Params.wf s.launch.params = true ∧ s.a7 = s.launch.params.sysWrite ∧ s.a0 = 1#64 ∧
     ∀ i, 8 * i < s.a2.toNat → ChunkReadable s i) ∧
    (let s := bench [(17, 64), (10, 1), (11, 0x3FF8), (12, 8)]
     Params.wf s.launch.params = true ∧ s.a7 = s.launch.params.sysWrite ∧ s.a0 = 1#64 ∧
     ∀ i, 8 * i < s.a2.toNat → ChunkReadable s i) := by
  refine ⟨⟨by decide, by decide, by decide, fun i hi => ?_⟩, by decide, by decide, by decide, fun i hi => ?_⟩
  · exact absurd hi (Nat.not_lt_zero _)
  · have h : i = 0 := by
      have : (bench [(17, 64), (10, 1), (11, 0x3FF8), (12, 8)]).a2.toNat = 8 := by decide
      omega
    subst h; exact ⟨by decide, by decide⟩

/-- Another descriptor; a first chunk misaligned; a second chunk out of range. -/
theorem witness_WriteRaisesInOrder :
    (let s := bench [(17, 64), (10, 2)]
     Params.wf s.launch.params = true ∧ s.a7 = s.launch.params.sysWrite ∧ s.a0 ≠ 1#64) ∧
    (let s := bench [(17, 64), (10, 1), (11, 0x1004), (12, 1)]
     s.a7 = s.launch.params.sysWrite ∧ s.a0 = 1#64 ∧ 8 * 0 < s.a2.toNat ∧ ¬ (chunkAddr s 0).toNat % 8 = 0) ∧
    (let s := bench [(17, 64), (10, 1), (11, 0x3FF8), (12, 9)]
     s.a7 = s.launch.params.sysWrite ∧ s.a0 = 1#64 ∧ 8 * 1 < s.a2.toNat ∧
     ((chunkAddr s 0).toNat % 8 = 0 ∧ (chunkAddr s 0).toNat < s.launch.memBytes) ∧
     (chunkAddr s 1).toNat % 8 = 0 ∧ ¬ (chunkAddr s 1).toNat < s.launch.memBytes) := by decide

/-- Equal to the break, the last address below sp, sp itself, below the break, misaligned (E4). -/
theorem witness_BrkMovesBreakWithinBounds :
    let s (req : Word) := bench [(17, 214), (10, req), (2, 0x3FE8)]
    let inside (t : State) := t.programBreak.toNat ≤ t.a0.toNat ∧ t.a0.toNat < t.sp.toNat
    Params.wf (s 0).launch.params = true ∧ (s 0).a7 = (s 0).launch.params.sysBrk ∧
    ((s 0x2000).a0.toNat % 8 = 0 ∧ inside (s 0x2000)) ∧ ((s 0x3FE0).a0.toNat % 8 = 0 ∧ inside (s 0x3FE0)) ∧
    ((s 0x3FE8).a0.toNat % 8 = 0 ∧ ¬ inside (s 0x3FE8)) ∧ ((s 0x1FF8).a0.toNat % 8 = 0 ∧ ¬ inside (s 0x1FF8)) ∧
    (s 0x2004).a0.toNat % 8 ≠ 0 := by decide

theorem witness_ReadAndOpenatAreUnsupported :
    let s := bench [(17, 63)]
    let t := bench [(17, 56)]
    Params.wf s.launch.params = true ∧ s.a7 = s.launch.params.sysRead ∧ t.a7 = t.launch.params.sysOpenat := by decide

theorem witness_OtherCallNumbersAreUnknown :
    let s := bench [(17, 0x10000005D)]
    s.a7 ≠ s.launch.params.sysExit ∧ s.a7 ≠ s.launch.params.sysWrite ∧ s.a7 ≠ s.launch.params.sysBrk ∧
    s.a7 ≠ s.launch.params.sysRead ∧ s.a7 ≠ s.launch.params.sysOpenat := by decide

/-- An Exit, and a Write of no bytes. -/
theorem witness_CallsKeepTheRest :
    (∃ t, exec .ecall (bench [(17, 93)]) = .next t ∧ t.status ≠ .faulted ∧
      (bench [(17, 93)]).a7 = (bench [(17, 93)]).launch.params.sysExit ∧
      (bench [(17, 93)]).a7 ≠ (bench [(17, 93)]).launch.params.sysBrk ∧
      (bench [(17, 93)]).a7 ≠ (bench [(17, 93)]).launch.params.sysWrite) ∧
    ∃ t, exec .ecall (bench [(17, 64), (10, 1)]) = .next t ∧ t.status ≠ .faulted :=
  ⟨⟨_, rfl, by decide⟩, _, rfl, by decide⟩

theorem witness_OnlyDestinationsChange :
    ∃ t, exec (.add 5 6 7) (bench [(6, 1)]) = .next t ∧ t.status ≠ .faulted ∧
      (4#5 : RegId) ∉ destRegs (.add 5 6 7) (bench [(6, 1)]) := ⟨_, rfl, by decide⟩

theorem witness_OnlySourcesAreRead :
    (4#5 : RegId) ∉ sourceRegs (.add 5 6 7) (bench []) ∧ (4#5 : RegId) ∉ destRegs (.add 5 6 7) (bench []) ∧
    (4#5 : RegId) ∉ sourceRegs .ecall (bench [(17, 214)]) ∧ (4#5 : RegId) ∉ destRegs .ecall (bench [(17, 214)]) ∧
    ∃ t, exec (.add 5 6 7) (bench []) = .next t ∧ t.status ≠ .faulted :=
  ⟨by decide, by decide, by decide, by decide, _, rfl, by decide⟩

theorem witness_PcAdvancesOrIsSet :
    ∃ t, exec (.jal 1 24) (bench []) = .next t ∧ t.status ≠ .faulted ∧ (bench []).pc.toNat % 4 = 0 := ⟨_, rfl, by decide⟩

theorem witness_OnlyExitHalts :
    ∃ t, step (loaded 0x73 [(17, 93)]) = .next t ∧ t.status = .halted := ⟨_, rfl, by decide⟩

theorem witness_LaunchAndCodeStoreAreConstant : ∃ t, step (loaded 0x13 []) = .next t := ⟨_, rfl⟩

theorem witness_OnlySdChangesMemory :
    ∃ t, step (loaded 0x81FFB023 [(31, 0x1800)]) = .next t ∧ t.status ≠ .faulted ∧
      t.mem.readByte 0x1001 ≠ (loaded 0x81FFB023 [(31, 0x1800)]).mem.readByte 0x1001 := ⟨_, rfl, by decide⟩

theorem witness_OnlyWriteExtendsStdout :
    let s := loaded 0x73 [(17, 64), (10, 1), (11, 0x1000), (12, 1)]
    ∃ t, step s = .next t ∧ t.stdout ≠ s.stdout := ⟨_, rfl, by decide⟩

theorem witness_OnlyBrkMovesBreakUpward :
    let s := loaded 0x73 [(17, 214), (10, 0x2010), (2, 0x3FE8)]
    ∃ t, step s = .next t ∧ t.status ≠ .faulted ∧ t.programBreak ≠ s.programBreak := ⟨_, rfl, by decide⟩

theorem witness_FreeValuesReachNothingElse :
    ∃ t, exec (.addi 5 0 1) (bench []) = .next t ∧ t.status ≠ .faulted := ⟨_, rfl, by decide⟩

/-- A state in each status, and two states the host cannot tell apart though both latches and the rest differ. -/
theorem witness_HostSeesOnlyStatusAndOutput :
    let s := bench []
    let t := { bench [(5, 1)] 0x20000 [(0, 1)] with exitCode := 7, faultCause := ⟨.divideByZero, 0⟩ }
    s.status = .running ∧ ({ s with status := .halted } : State).status = .halted ∧ (s.raise ⟨.divideByZero, 0⟩).status = .faulted ∧
    t ≠ s ∧ hostView t = hostView s := by decide

/-- A state inside a run, about to store. -/
theorem witness_StepKeepsInvariant :
    let s := { loaded 0x81FFB023 [(31, 0x1800)] with programBreak := 0x2000 }
    s.Inv ∧ ∃ t, step s = .next t :=
  ⟨⟨by decide, by decide, by decide, by decide, by decide, by decide⟩, _, rfl⟩

/-- Launches of 2.8, the second with its break exactly at data_end. -/
theorem witness_WellFormedLaunchBoots :
    Launch.wf twoArguments = true ∧
    Launch.wf { Launch.default with memBytes := 4096 + 24, dataBase := 4088, data := [7] } = true := by decide

theorem witness_BootSetsControlState : Launch.wf twoArguments = true ∧ ∃ s, boot twoArguments = .next s := ⟨by decide, _, rfl⟩

theorem witness_BootLaysOutMemory :
    let l := { twoArguments with dataBase := 8, data := [7] }
    Launch.wf l = true ∧ (∃ s, boot l = .next s) ∧ l.data[0]? = some 7 ∧ 0 < l.argv.length ∧
    l.argv[1]? = some [0x31, 0x32, 0x33, 0x34, 0x35, 0x36, 0x37, 0x38] ∧
    (0 < l.dataBase.toNat ∨ l.dataEnd ≤ 0) ∧ 0 < initialSp l := ⟨by decide, ⟨_, rfl⟩, by decide⟩

/-- Each premise of R183 broken alone: (a), (b), (c), (e), (f), and R6's on the parameters. -/
theorem witness_IllFormedLaunchIsRefused :
    Launch.wf { Launch.default with memBytes := 4092 } = false ∧
    Launch.wf { Launch.default with codeBase := 0x10002 } = false ∧
    Launch.wf { Launch.default with codeBase := 0xFFFFFFFFFFFFFFFC, code := [0x13, 0x13] } = false ∧
    Launch.wf { Launch.default with dataBase := 4 } = false ∧
    Launch.wf { Launch.default with dataBase := 4088, data := [1, 2] } = false ∧
    Launch.wf { Launch.default with memBytes := 16 } = false ∧
    Launch.wf { Launch.default with dataBase := 0x100, data := [1] } = false ∧
    Launch.wf { Launch.default with params := { regA0 := 2 } } = false ∧
    Launch.wf { Launch.default with params := { sysRead := 93 } } = false := by decide

/-- The same two answers of boot itself: refused, and not. -/
theorem witness_IllFormedLaunchIsRefused_both :
    boot { Launch.default with memBytes := 4092 } = .refused .illFormedLaunch ∧
    boot twoArguments ≠ .refused .illFormedLaunch := ⟨rfl, nofun⟩

theorem witness_FirstCycleRunsFirstRecord :
    Launch.wf fourWords = true ∧ fourWords.code[0]? = some 0x13 ∧ decodeWord 0x13 = some (.addi 0 0 0) := by decide

end Sys2Proof.Tests
end

section
/-! PROOFS. What a step leaves of the launch (00_scope.md R5, 20_memory.md R40): the launch parameters and the code
store stand in one field of the state, so the frame of that one field settles both. -/

namespace Sys2Proof.Machine

@[simp] theorem returnValue_launch (s : State) (v : Word) : (s.returnValue v).launch = s.launch := by
  simp [State.returnValue]

@[simp] theorem callExit_launch (s : State) : (callExit s).launch = s.launch := rfl

/-- No effect of an instruction reaches the launch. -/
theorem Effect.launch_eq {i : Instr} {s t : State} (h : Effect i s t) : t.launch = s.launch := by
  cases h with
  | raised h => exact h.launch
  | wrote rd v _ ht => simp [ht]
  | moved _ ht => simp [ht]
  | stored rs1 rs2 imm _ _ _ ht => simp [ht]
  | exited _ _ ht => simp [ht]
  | emitted bs _ _ _ ht => simp [ht]
  | brk _ _ _ _ _ ht => simp [ht]

theorem exec_launch {i : Instr} {s t : State} (h : exec i s = .next t) : t.launch = s.launch :=
  (exec_effect h).launch_eq

theorem step_launch {s t : State} (h : step s = .next t) : t.launch = s.launch := by
  obtain ⟨_, ⟨f, _, rfl⟩ | ⟨i, _, hexec⟩⟩ := step_cases h
  · exact raise_launch s f
  · exact exec_launch hexec

/-- Settles O47: the code store is part of the launch, and fetch reads nothing else of the state. -/
theorem launchAndCodeStoreAreConstant : Obligations.LaunchAndCodeStoreAreConstant := by
  intro s t hstep
  have hlaunch : t.launch = s.launch := step_launch hstep
  exact ⟨hlaunch, fun pc => congrArg (fetch · pc) hlaunch⟩

end Sys2Proof.Machine
end

section
/-! PROOFS. The operations over the registers and the pc (10_state.md R11, R16, R17). -/

namespace Sys2Proof.Machine

/-- Settles O13, from the read-after-write law of the register file. -/
theorem registerZeroIsHardWired : Obligations.RegisterZeroIsHardWired := by
  refine ⟨readReg_zero, writeReg_zero, fun s r q v hr => ?_⟩
  simp [readReg_writeReg, hr]

theorem advancePc_toNat (s : State) : s.advancePc.pc.toNat = (s.pc.toNat + 4) % 2 ^ 64 := by
  simp [BitVec.toNat_add]

/-- The modulus 2^64 is a multiple of 4, so the wrap keeps alignment. -/
theorem advancePc_aligned {s : State} (h : s.pc.toNat % 4 = 0) : s.advancePc.pc.toNat % 4 = 0 := by
  rw [advancePc_toNat]; omega

/-- Settles O14. -/
theorem advancePcWrapsAndStaysAligned : Obligations.AdvancePcWrapsAndStaysAligned := by
  refine ⟨fun s => ⟨rfl, advancePc_toNat s⟩, fun s h => ?_, fun s h => advancePc_aligned h⟩
  rw [advancePc_pc, h]; rfl

/-- Settles O15, from the two ends of JumpPc. -/
theorem jumpPcNeedsAlignedTarget : Obligations.JumpPcNeedsAlignedTarget := by
  intro s t
  rcases jumpPc_cases s t with ⟨h4, e⟩ | ⟨h4, e⟩
  · exact ⟨fun _ => e, fun hne => absurd h4 hne⟩
  · exact ⟨fun h => absurd h h4, fun _ => e⟩

end Sys2Proof.Machine
end

section
/-! PROOFS. What an instruction's effect leaves of each field of the state, field by field; every rule of the whole
machine below is read off one of these lemmas. -/

namespace Sys2Proof.Machine

/-! returnValue writes a0 alone; Exit latches alone. -/

@[simp] theorem returnValue_pc (s : State) (v) : (s.returnValue v).pc = s.pc := by simp [State.returnValue]
@[simp] theorem returnValue_mem (s : State) (v) : (s.returnValue v).mem = s.mem := by simp [State.returnValue]
@[simp] theorem returnValue_programBreak (s : State) (v) : (s.returnValue v).programBreak = s.programBreak := by
  simp [State.returnValue]
@[simp] theorem returnValue_status (s : State) (v) : (s.returnValue v).status = s.status := by
  simp [State.returnValue]
@[simp] theorem returnValue_stdout (s : State) (v) : (s.returnValue v).stdout = s.stdout := by
  simp [State.returnValue]
@[simp] theorem returnValue_slotZero (s : State) (v) : (s.returnValue v).regs[0] = s.regs[0] := by
  simp [State.returnValue]

theorem returnValue_readReg_ne (s : State) {r : RegId} (v : Word) (h : r ≠ s.launch.params.regA0) :
    (s.returnValue v).readReg r = s.readReg r := readReg_writeReg_ne s v h

@[simp] theorem callExit_regs (s : State) : (callExit s).regs = s.regs := rfl
@[simp] theorem callExit_pc (s : State) : (callExit s).pc = s.pc := rfl
@[simp] theorem callExit_mem (s : State) : (callExit s).mem = s.mem := rfl
@[simp] theorem callExit_programBreak (s : State) : (callExit s).programBreak = s.programBreak := rfl
@[simp] theorem callExit_status (s : State) : (callExit s).status = .halted := rfl
@[simp] theorem callExit_exitCode (s : State) : (callExit s).exitCode = s.a0 := rfl
@[simp] theorem callExit_stdout (s : State) : (callExit s).stdout = s.stdout := rfl

/-- The new break is the old one, or the request that lies between the old break and sp (46_system_call.md R129). -/
theorem breakAfter_cases (s : State) (req : Word) :
    breakAfter s req = s.programBreak ∨
    (breakAfter s req = req ∧ s.programBreak.toNat ≤ req.toNat ∧ req.toNat < s.sp.toNat) := by
  unfold breakAfter
  by_cases h : s.programBreak.toNat ≤ req.toNat ∧ req.toNat < s.sp.toNat
  · exact .inr ⟨if_pos h, h⟩
  · exact .inl (if_neg h)

/-! R13's list for each call that writes. -/

theorem destRegs_ecall_write {s : State} (hx : s.a7 ≠ s.launch.params.sysExit)
    (hw : s.a7 = s.launch.params.sysWrite) : destRegs .ecall s = [s.launch.params.regA0] := by
  simp only [destRegs, if_neg hx, if_pos hw]

theorem destRegs_ecall_brk {s : State} (hx : s.a7 ≠ s.launch.params.sysExit)
    (hw : s.a7 ≠ s.launch.params.sysWrite) (hb : s.a7 = s.launch.params.sysBrk) :
    destRegs .ecall s = [s.launch.params.regA0] := by
  simp only [destRegs, if_neg hx, if_neg hw, if_pos hb]

/-! The fields, one by one. -/

theorem Effect.slotZero {i : Instr} {s t : State} (h : Effect i s t) : t.regs[0] = s.regs[0] := by
  cases h with
  | raised h => exact h.slotZero
  | wrote rd v _ ht => simp [ht]
  | moved _ ht => simp [ht]
  | stored rs1 rs2 imm _ _ _ ht => simp [ht]
  | exited _ _ ht => simp [ht]
  | emitted bs _ _ _ ht => simp [ht]
  | brk _ _ _ _ _ ht => simp [ht]

/-- Memory stays, but for an Sd that completes. -/
theorem Effect.mem_cases {i : Instr} {s t : State} (h : Effect i s t) :
    t.mem = s.mem ∨
    ∃ rs1 rs2 imm, i = .sd rs1 rs2 imm ∧ (s.readReg rs1 + imm).toNat % 8 = 0 ∧
      (s.readReg rs1 + imm).toNat < s.launch.memBytes ∧
      t.mem = s.mem.writeWord (s.readReg rs1 + imm).toNat (s.readReg rs2) := by
  cases h with
  | raised h => exact .inl h.mem
  | wrote rd v _ ht => simp [ht]
  | moved _ ht => simp [ht]
  | stored rs1 rs2 imm hi h8 hm ht => exact .inr ⟨rs1, rs2, imm, hi, h8, hm, by simp [ht]⟩
  | exited _ _ ht => simp [ht]
  | emitted bs _ _ _ ht => simp [ht]
  | brk _ _ _ _ _ ht => simp [ht]

/-- The break stays, but for a Brk whose aligned request lies between the old break and sp. -/
theorem Effect.programBreak_cases {i : Instr} {s t : State} (h : Effect i s t) :
    t.programBreak = s.programBreak ∨
    (i = .ecall ∧ s.a7 = s.launch.params.sysBrk ∧ t.programBreak = s.a0 ∧ s.a0.toNat % 8 = 0 ∧
      s.programBreak.toNat ≤ s.a0.toNat ∧ s.a0.toNat < s.sp.toNat) := by
  cases h with
  | raised h => exact .inl h.programBreak
  | wrote rd v _ ht => simp [ht]
  | moved _ ht => simp [ht]
  | stored rs1 rs2 imm _ _ _ ht => simp [ht]
  | exited _ _ ht => simp [ht]
  | emitted bs _ _ _ ht => simp [ht]
  | brk hi _ _ hb h8 ht =>
    have hbreak : t.programBreak = breakAfter s s.a0 := by simp [ht]
    rcases breakAfter_cases s s.a0 with e | ⟨e, hle, hlt⟩
    · exact .inl (hbreak.trans e)
    · exact .inr ⟨hi, hb, hbreak.trans e, h8, hle, hlt⟩

/-- The output stays, but for a Write, which appends. -/
theorem Effect.stdout_cases {i : Instr} {s t : State} (h : Effect i s t) :
    t.stdout = s.stdout ∨
    (i = .ecall ∧ s.a7 = s.launch.params.sysWrite ∧ ∃ bs, t.stdout = s.stdout ++ bs) := by
  cases h with
  | raised h => exact h.stdout
  | wrote rd v _ ht => simp [ht]
  | moved _ ht => simp [ht]
  | stored rs1 rs2 imm _ _ _ ht => simp [ht]
  | exited _ _ ht => simp [ht]
  | emitted bs hi _ hw ht => exact .inr ⟨hi, hw, bs, by simp [ht]⟩
  | brk _ _ _ _ _ ht => simp [ht]

/-- The status stays, but for a fatal condition and an Exit. -/
theorem Effect.status_cases {i : Instr} {s t : State} (h : Effect i s t) :
    t.status = s.status ∨ t.status = .faulted ∨
    (i = .ecall ∧ s.a7 = s.launch.params.sysExit ∧ t.status = .halted ∧ t.exitCode = s.a0) := by
  cases h with
  | raised h => exact .inr (.inl h.status)
  | wrote rd v _ ht => simp [ht]
  | moved _ ht => simp [ht]
  | stored rs1 rs2 imm _ _ _ ht => simp [ht]
  | exited hi hx ht => exact .inr (.inr ⟨hi, hx, by simp [ht], by simp [ht]⟩)
  | emitted bs _ _ _ ht => simp [ht]
  | brk _ _ _ _ _ ht => simp [ht]

/-- A register outside the destinations stays. -/
theorem Effect.readReg_eq {i : Instr} {s t : State} (h : Effect i s t) (hf : t.status ≠ .faulted) {r : RegId}
    (hr : r ∉ destRegs i s) : t.readReg r = s.readReg r := by
  cases h with
  | raised h => exact absurd h.status hf
  | wrote rd v hd ht =>
    have hne : r ≠ rd := by simpa [hd] using hr
    rw [ht]; exact readReg_writeReg_ne s v hne
  | moved _ ht => rw [ht]; rfl
  | stored rs1 rs2 imm _ _ _ ht => rw [ht]; rfl
  | exited _ _ ht => rw [ht]; rfl
  | emitted bs hi hx hw ht =>
    have hne : r ≠ s.launch.params.regA0 := by simpa [hi, destRegs_ecall_write hx hw] using hr
    rw [ht]; exact returnValue_readReg_ne (s.emit bs) _ hne
  | brk hi hx hw hb _ ht =>
    have hne : r ≠ s.launch.params.regA0 := by simpa [hi, destRegs_ecall_brk hx hw hb] using hr
    rw [ht]; exact returnValue_readReg_ne { s with programBreak := breakAfter s s.a0 } _ hne

/-- An instruction that completes leaves the pc where R15 says, and a 4-byte aligned pc aligned. -/
theorem Effect.pc_eq {i : Instr} {s t : State} (h : Effect i s t) (hf : t.status ≠ .faulted) :
    t.pc = nextPc i s ∧ (s.pc.toNat % 4 = 0 → t.pc.toNat % 4 = 0) := by
  have ends_at_next (hn : nextPc i s = s.pc + 4#64) (ht : t.pc = s.pc + 4#64) :
      t.pc = nextPc i s ∧ (s.pc.toNat % 4 = 0 → t.pc.toNat % 4 = 0) :=
    ⟨ht.trans hn.symm, fun h4 => by rw [ht]; exact advancePc_aligned h4⟩
  cases h with
  | raised h => exact absurd h.status hf
  | wrote rd v _ ht hp => exact ⟨by rw [ht], hp⟩
  | moved _ ht hp => exact ⟨by rw [ht], hp⟩
  | stored rs1 rs2 imm hi _ _ ht => exact ends_at_next (by rw [hi]; rfl) (by simp [ht])
  | exited hi _ ht => exact ends_at_next (by rw [hi]; rfl) (by simp [ht])
  | emitted bs hi _ _ ht => exact ends_at_next (by rw [hi]; rfl) (by simp [ht])
  | brk hi _ _ _ _ ht => exact ends_at_next (by rw [hi]; rfl) (by simp [ht])

/-- Settles O43. -/
theorem onlyDestinationsChange : Obligations.OnlyDestinationsChange :=
  fun _ _ _ hexec hf _ hr => (exec_effect hexec).readReg_eq hf hr

/-- Settles O45. -/
theorem pcAdvancesOrIsSet : Obligations.PcAdvancesOrIsSet :=
  fun _ _ _ hexec hf => (exec_effect hexec).pc_eq hf

end Sys2Proof.Machine
end

section
/-! PROOFS. The rules of the whole machine: a step is a fetch that raised, which leaves all of these fields, or the
effect of the fetched record. -/

namespace Sys2Proof.Machine

/-- The inversion of a step, down to the effect. -/
theorem step_effect {s t : State} (h : step s = .next t) :
    (∃ f, t = s.raise f) ∨ ∃ i, fetch s.launch s.pc = .ok i ∧ Effect i s t := by
  obtain ⟨_, ⟨f, _, ht⟩ | ⟨i, hfetch, hexec⟩⟩ := step_cases h
  · exact .inl ⟨f, ht⟩
  · exact .inr ⟨i, hfetch, exec_effect hexec⟩

theorem running_of_step {s t : State} (h : step s = .next t) : s.status = .running := (step_cases h).1

/-- Settles O46: a step starts Running, and of the ways to change the status only Exit gives Halted. -/
theorem onlyExitHalts : Obligations.OnlyExitHalts := by
  intro s t hstep hhalt
  have hrun : s.status = .running := running_of_step hstep
  rcases step_effect hstep with ⟨f, rfl⟩ | ⟨i, hfetch, heff⟩
  · simp at hhalt
  · rcases heff.status_cases with hst | hst | ⟨rfl, hx, _, hcode⟩
    · simp [hst, hrun] at hhalt
    · simp [hst] at hhalt
    · exact ⟨hfetch, hx, hcode⟩

/-- Settles O48: outside the stored word a byte reads as before. -/
theorem onlySdChangesMemory : Obligations.OnlySdChangesMemory := by
  intro s t a hstep _ hne
  rcases step_effect hstep with ⟨f, rfl⟩ | ⟨i, hfetch, heff⟩
  · exact absurd rfl hne
  · rcases heff.mem_cases with hmem | ⟨rs1, rs2, imm, rfl, _, _, hmem⟩
    · exact absurd (by rw [hmem]) hne
    · refine ⟨rs1, rs2, imm, hfetch, ?_⟩
      by_contra hout
      exact hne (by rw [hmem, readByte_writeWord, if_neg hout])

/-- Settles O49. -/
theorem onlyWriteExtendsStdout : Obligations.OnlyWriteExtendsStdout := by
  intro s t hstep
  rcases step_effect hstep with ⟨f, rfl⟩ | ⟨i, hfetch, heff⟩
  · exact ⟨⟨[], by simp⟩, fun hne => absurd rfl hne⟩
  · rcases heff.stdout_cases with hout | ⟨rfl, hw, hout⟩
    · exact ⟨⟨[], by simp [hout]⟩, fun hne => absurd hout hne⟩
    · exact ⟨hout, fun _ => ⟨hfetch, hw⟩⟩

/-- Settles O50. -/
theorem onlyBrkMovesBreakUpward : Obligations.OnlyBrkMovesBreakUpward := by
  intro s t hstep _
  rcases step_effect hstep with ⟨f, rfl⟩ | ⟨i, hfetch, heff⟩
  · exact ⟨le_rfl, fun hne => absurd rfl hne⟩
  · rcases heff.programBreak_cases with hb | ⟨rfl, hcall, hb, h8, hle, hlt⟩
    · exact ⟨by rw [hb], fun hne => absurd hb hne⟩
    · rw [hb]
      exact ⟨hle, fun _ => ⟨hfetch, hcall, rfl, h8, hlt⟩⟩

end Sys2Proof.Machine
end

section
/-! PROOFS. The invariant (Safety.lean, State.Inv) is kept by a fatal condition and by every effect, so by every step. -/

namespace Sys2Proof.Machine

/-- A fatal condition changes no field the invariant reads of a Faulted state. -/
theorem State.Inv.raise {s : State} (hs : s.Inv) (f : FatalCondition) : (s.raise f).Inv where
  launch := hs.launch
  memCanonical := hs.memCanonical
  memInside := hs.memInside
  zeroSlot := hs.zeroSlot
  pcAligned := nofun
  breakOk h := absurd rfl h

theorem Effect.mem_wf {i : Instr} {s t : State} (h : Effect i s t) (hm : s.mem.wf = true) : t.mem.wf = true := by
  rcases h.mem_cases with e | ⟨rs1, rs2, imm, _, _, _, e⟩
  · rwa [e]
  · rw [e]; exact writeWord_wf _ _ hm

/-- MEM_BYTES is a multiple of 8, so an aligned word that starts below it also ends there. -/
theorem Effect.mem_inside {i : Instr} {s t : State} (h : Effect i s t) (h8 : s.launch.memBytes % 8 = 0)
    (hin : ∀ c ∈ s.mem, c.1 < s.launch.memBytes) : ∀ c ∈ t.mem, c.1 < s.launch.memBytes := by
  rcases h.mem_cases with e | ⟨rs1, rs2, imm, _, ha, hlt, e⟩
  · rwa [e]
  · intro c hc
    rw [e] at hc
    rcases mem_writeWord hc with ⟨_, hc⟩ | hc
    · omega
    · exact hin c hc

theorem Effect.break_ok {i : Instr} {s t : State} (h : Effect i s t) {n : Nat}
    (hb : n ≤ s.programBreak.toNat ∧ s.programBreak.toNat % 8 = 0) :
    n ≤ t.programBreak.toNat ∧ t.programBreak.toNat % 8 = 0 := by
  rcases h.programBreak_cases with e | ⟨_, _, e, h8, hle, _⟩
  · rwa [e]
  · rw [e]; exact ⟨hb.1.trans hle, h8⟩

theorem State.Inv.effect {i : Instr} {s t : State} (hs : s.Inv) (hrun : s.status = .running) (h : Effect i s t) :
    t.Inv where
  launch := by rw [h.launch_eq]; exact hs.launch
  memCanonical := h.mem_wf hs.memCanonical
  memInside := by rw [h.launch_eq]; exact h.mem_inside (launchFacts hs.launch).memAligned hs.memInside
  zeroSlot := h.slotZero.trans hs.zeroSlot
  pcAligned ht := (h.pc_eq (by simp [ht])).2 (hs.pcAligned hrun)
  breakOk _ := by rw [h.launch_eq]; exact h.break_ok (hs.breakOk (by simp [hrun]))

/-- Settles O53. -/
theorem stepKeepsInvariant : Obligations.StepKeepsInvariant := by
  intro s t hs hstep
  rcases step_effect hstep with ⟨f, rfl⟩ | ⟨i, _, heff⟩
  · exact hs.raise f
  · exact hs.effect (running_of_step hstep) heff

end Sys2Proof.Machine
end

section
/-! PROOFS. Noninterference (10_state.md R13): writing a register that an instruction neither reads nor writes commutes
with executing it. Each operation below commutes with such a write; exec is put together from them. -/

namespace Sys2Proof.Machine

/-- The outcome with v written to register r of its next state. -/
def outcomeWriteReg (r : RegId) (v : Word) : Host.Outcome State Fault Refusal → Host.Outcome State Fault Refusal
  | .next t => .next (t.writeReg r v)
  | .fault e => .fault e
  | .refused e => .refused e

@[simp] theorem outcomeWriteReg_next (r : RegId) (v : Word) (t : State) :
    outcomeWriteReg r v (.next t) = .next (t.writeReg r v) := rfl

section
variable (s : State) (r : RegId) (v : Word)

/-! Updates of another field. -/

theorem writeReg_setPc (p : Word) : { s.writeReg r v with pc := p } = ({ s with pc := p } : State).writeReg r v := by
  unfold State.writeReg; split <;> rfl

theorem writeReg_setMem (m : Memory) :
    { s.writeReg r v with mem := m } = ({ s with mem := m } : State).writeReg r v := by
  unfold State.writeReg; split <;> rfl

theorem writeReg_setBreak (b : Word) :
    { s.writeReg r v with programBreak := b } = ({ s with programBreak := b } : State).writeReg r v := by
  unfold State.writeReg; split <;> rfl

theorem writeReg_advancePc : (s.writeReg r v).advancePc = s.advancePc.writeReg r v := by
  unfold State.writeReg; split <;> rfl

theorem writeReg_emit (bs : List Byte) : (s.writeReg r v).emit bs = (s.emit bs).writeReg r v := by
  unfold State.writeReg; split <;> rfl

theorem writeReg_raise (f : FatalCondition) : (s.writeReg r v).raise f = (s.raise f).writeReg r v := by
  unfold State.writeReg; split <;> rfl

/-! The shared operations. -/

theorem writeReg_conclude (x : Except FatalCondition State) :
    (s.writeReg r v).conclude (x.map (·.writeReg r v)) = outcomeWriteReg r v (s.conclude x) := by
  cases x with
  | ok t => rfl
  | error f => exact congrArg Host.Outcome.next (writeReg_raise s r v f)

theorem writeReg_checkData (a : Word) : (s.writeReg r v).checkData a = s.checkData a := by
  simp [State.checkData]

theorem writeReg_memRead (a : Word) : (s.writeReg r v).memRead a = s.memRead a := by
  simp [State.memRead, writeReg_checkData]

theorem writeReg_memWrite (a w : Word) :
    (s.writeReg r v).memWrite a w = (s.memWrite a w).map (·.writeReg r v) := by
  unfold State.memWrite
  rw [writeReg_checkData, writeReg_mem]
  cases s.checkData a with
  | error f => rfl
  | ok _ => exact congrArg Except.ok (writeReg_setMem s r v _)

theorem writeReg_jumpPc (p : Word) : (s.writeReg r v).jumpPc p = (s.jumpPc p).map (·.writeReg r v) := by
  unfold State.jumpPc
  split
  · exact congrArg Except.ok (writeReg_setPc s r v p)
  · rfl

theorem writeReg_checkDivisor (b : Word) : (s.writeReg r v).checkDivisor b = s.checkDivisor b := by
  simp [State.checkDivisor]

theorem writeReg_readChunks (n : Nat) (a : Word) : readChunks (s.writeReg r v) n a = readChunks s n a :=
  readChunks_congr (writeReg_launch s r v) (writeReg_mem s r v) n a

end

/-! The operations that write a register, another one than r. -/

section
variable (s : State) {r : RegId} (v : Word)

theorem writeReg_retire {rd : RegId} (h : r ≠ rd) (x : Word) :
    (s.writeReg r v).retire rd x = (s.retire rd x).writeReg r v := by
  rw [State.retire, writeReg_comm s v x h, writeReg_advancePc]; rfl

theorem writeReg_returnValue (h : r ≠ s.launch.params.regA0) (x : Word) :
    (s.writeReg r v).returnValue x = (s.returnValue x).writeReg r v := by
  rw [State.returnValue, writeReg_launch, writeReg_comm s v x h]; rfl

theorem writeReg_linkAndJump {rd : RegId} (h : r ≠ rd) (target : Word) :
    linkAndJump rd target (s.writeReg r v) = (linkAndJump rd target s).writeReg r v := by
  have hlink : (s.writeReg r v).link = s.link := by simp [State.link]
  rcases linkAndJump_cases rd target s with ⟨h4, e⟩ | ⟨h4, e⟩ <;>
    rcases linkAndJump_cases rd target (s.writeReg r v) with ⟨h4', e'⟩ | ⟨h4', e'⟩
  · rw [e, e', hlink, writeReg_comm s v _ h, writeReg_setPc]
  · exact absurd h4 h4'
  · exact absurd h4' h4
  · rw [e, e', writeReg_draws, writeReg_comm s v _ h, writeReg_raise]

end

/-! The calls. -/

section
variable {s : State} {r : RegId} (v : Word)

theorem writeReg_sp (h : r ≠ s.launch.params.regSp) : (s.writeReg r v).sp = s.sp := by simp [State.sp, h.symm]
theorem writeReg_a0 (h : r ≠ s.launch.params.regA0) : (s.writeReg r v).a0 = s.a0 := by simp [State.a0, h.symm]
theorem writeReg_a1 (h : r ≠ s.launch.params.regA1) : (s.writeReg r v).a1 = s.a1 := by simp [State.a1, h.symm]
theorem writeReg_a2 (h : r ≠ s.launch.params.regA2) : (s.writeReg r v).a2 = s.a2 := by simp [State.a2, h.symm]
theorem writeReg_a7 (h : r ≠ s.launch.params.regCallNo) : (s.writeReg r v).a7 = s.a7 := by simp [State.a7, h.symm]

theorem writeReg_callExit (h0 : r ≠ s.launch.params.regA0) :
    callExit (s.writeReg r v) = (callExit s).writeReg r v := by
  rw [callExit, writeReg_a0 v h0]
  unfold State.writeReg; split <;> rfl

theorem writeReg_callWrite (h0 : r ≠ s.launch.params.regA0) (h1 : r ≠ s.launch.params.regA1)
    (h2 : r ≠ s.launch.params.regA2) : callWrite (s.writeReg r v) = (callWrite s).writeReg r v := by
  unfold callWrite
  rw [writeReg_a0 v h0, writeReg_a1 v h1, writeReg_a2 v h2, writeReg_readChunks]
  split
  · exact writeReg_raise s r v _
  · split
    · rw [emittedBeforeRaise, writeReg_draws, writeReg_emit, writeReg_raise]; rfl
    · rw [writeReg_emit, writeReg_returnValue (s.emit _) v h0, writeReg_advancePc]

theorem writeReg_breakAfter (hsp : r ≠ s.launch.params.regSp) (req : Word) :
    breakAfter (s.writeReg r v) req = breakAfter s req := by
  unfold breakAfter
  rw [writeReg_programBreak, writeReg_sp v hsp]

theorem writeReg_callBrk (h0 : r ≠ s.launch.params.regA0) (hsp : r ≠ s.launch.params.regSp) :
    callBrk (s.writeReg r v) = (callBrk s).writeReg r v := by
  unfold callBrk
  rw [writeReg_a0 v h0, writeReg_breakAfter v hsp]
  split
  · exact writeReg_raise s r v _
  · rw [writeReg_setBreak, writeReg_returnValue { s with programBreak := breakAfter s s.a0 } v h0,
      writeReg_advancePc]

theorem regCallNo_mem_sourceRegs (s : State) : s.launch.params.regCallNo ∈ sourceRegs .ecall s := by
  simp only [sourceRegs]
  split_ifs <;> exact List.mem_cons_self

/-- The dispatch reads the call number alone, each call its own sources; a0, where a call writes it, is one of them. -/
theorem writeReg_execEcall (hr : r ∉ sourceRegs .ecall s) :
    execEcall (s.writeReg r v) = outcomeWriteReg r v (execEcall s) := by
  have h7 : r ≠ s.launch.params.regCallNo := fun e => hr (e ▸ regCallNo_mem_sourceRegs s)
  simp only [sourceRegs] at hr
  unfold execEcall
  rw [writeReg_a7 v h7, writeReg_launch]
  split_ifs at hr ⊢ with hexit hwrite hbrk
  · have ⟨_, h0⟩ : r ≠ s.launch.params.regCallNo ∧ r ≠ s.launch.params.regA0 := by simpa using hr
    rw [writeReg_callExit v h0, writeReg_advancePc]; rfl
  · have ⟨_, h0, h1, h2⟩ : r ≠ s.launch.params.regCallNo ∧ r ≠ s.launch.params.regA0 ∧
      r ≠ s.launch.params.regA1 ∧ r ≠ s.launch.params.regA2 := by simpa using hr
    rw [writeReg_callWrite v h0 h1 h2]; rfl
  · have ⟨_, h0, hsp⟩ : r ≠ s.launch.params.regCallNo ∧ r ≠ s.launch.params.regA0 ∧
      r ≠ s.launch.params.regSp := by simpa using hr
    rw [writeReg_callBrk v h0 hsp]; rfl
  all_goals exact congrArg Host.Outcome.next (writeReg_raise s r v _)

end

/-! The instructions whose rule can raise after it has read a register. -/

section
variable {s : State} {r : RegId} (v : Word)

theorem writeReg_execBeq {a b : RegId} (ha : a ≠ r) (hb : b ≠ r) (imm : Word) :
    execBeq a b imm (s.writeReg r v) = outcomeWriteReg r v (execBeq a b imm s) := by
  have heq : (s.writeReg r v).equalRegs a b = s.equalRegs a b := by simp [State.equalRegs, ha, hb]
  have htarget : (s.writeReg r v).pcRelative imm = s.pcRelative imm := by simp [State.pcRelative]
  unfold execBeq
  rw [heq, htarget]
  split
  · rw [writeReg_jumpPc, writeReg_conclude]
  · rw [writeReg_advancePc]; rfl

theorem writeReg_execLd {rd a : RegId} (hd : r ≠ rd) (ha : a ≠ r) (imm : Word) :
    execLd rd a imm (s.writeReg r v) = outcomeWriteReg r v (execLd rd a imm s) := by
  have haddr : (s.writeReg r v).baseDisp a imm = s.baseDisp a imm := by simp [State.baseDisp, ha]
  unfold execLd
  rw [haddr, writeReg_memRead, ← writeReg_conclude]
  cases s.memRead (s.baseDisp a imm) <;> simp [Except.map, writeReg_retire s v hd]

theorem writeReg_execSd {a b : RegId} (ha : a ≠ r) (hb : b ≠ r) (imm : Word) :
    execSd a b imm (s.writeReg r v) = outcomeWriteReg r v (execSd a b imm s) := by
  have haddr : (s.writeReg r v).baseDisp a imm = s.baseDisp a imm := by simp [State.baseDisp, ha]
  unfold execSd
  rw [haddr, readReg_writeReg_ne s v hb, writeReg_memWrite, ← writeReg_conclude]
  cases s.memWrite (s.baseDisp a imm) (s.readReg b) <;> simp [Except.map, writeReg_advancePc]

/-- The common shape of Divu and Remu: the divisor's test, then a register write. -/
theorem writeReg_checkedRetire {rd : RegId} (hd : r ≠ rd) (b x : Word) :
    (s.writeReg r v).conclude (((s.writeReg r v).checkDivisor b).map fun _ => (s.writeReg r v).retire rd x) =
      outcomeWriteReg r v (s.conclude ((s.checkDivisor b).map fun _ => s.retire rd x)) := by
  rw [writeReg_checkDivisor, ← writeReg_conclude]
  cases s.checkDivisor b <;> simp [Except.map, writeReg_retire s v hd]

end

/-- Executing commutes with writing a register outside the sources and the destinations. -/
theorem exec_writeReg {i : Instr} {s : State} {r : RegId} (v : Word) (hs : r ∉ sourceRegs i s)
    (hd : r ∉ destRegs i s) : exec i (s.writeReg r v) = outcomeWriteReg r v (exec i s) := by
  have source_ne : ∀ q ∈ sourceRegs i s, q ≠ r := fun q hq e => hs (e ▸ hq)
  have dest_ne : ∀ q ∈ destRegs i s, r ≠ q := fun q hq e => hd (e ▸ hq)
  have reads : ∀ q ∈ sourceRegs i s, (s.writeReg r v).readReg q = s.readReg q :=
    fun q hq => readReg_writeReg_ne s v (source_ne q hq)
  have retires : ∀ q ∈ destRegs i s, ∀ x, (s.writeReg r v).retire q x = (s.retire q x).writeReg r v :=
    fun q hq x => writeReg_retire s v (dest_ne q hq) x
  have links : ∀ q ∈ destRegs i s, ∀ p, linkAndJump q p (s.writeReg r v) = (linkAndJump q p s).writeReg r v :=
    fun q hq p => writeReg_linkAndJump s v (dest_ne q hq) p
  cases i with
  | lui rd imm => simp [exec, execLui, retires rd (.head _)]
  | addi rd a imm => simp [exec, execAddi, reads a (.head _), retires rd (.head _)]
  | add rd a b => simp [exec, execAdd, reads a (.head _), reads b (.tail _ (.head _)), retires rd (.head _)]
  | sub rd a b => simp [exec, execSub, reads a (.head _), reads b (.tail _ (.head _)), retires rd (.head _)]
  | sltu rd a b => simp [exec, execSltu, reads a (.head _), reads b (.tail _ (.head _)), retires rd (.head _)]
  | mul rd a b => simp [exec, execMul, reads a (.head _), reads b (.tail _ (.head _)), retires rd (.head _)]
  | divu rd a b =>
    simp only [exec, execDivu, reads a (.head _), reads b (.tail _ (.head _))]
    exact writeReg_checkedRetire v (dest_ne rd (.head _)) _ _
  | remu rd a b =>
    simp only [exec, execRemu, reads a (.head _), reads b (.tail _ (.head _))]
    exact writeReg_checkedRetire v (dest_ne rd (.head _)) _ _
  | jal rd imm => simp [exec, execJal, State.pcRelative, links rd (.head _)]
  | jalr rd a imm => simp [exec, execJalr, State.baseDisp, reads a (.head _), links rd (.head _)]
  | beq a b imm => exact writeReg_execBeq v (source_ne a (.head _)) (source_ne b (.tail _ (.head _))) imm
  | ld rd a imm => exact writeReg_execLd v (dest_ne rd (.head _)) (source_ne a (.head _)) imm
  | sd a b imm => exact writeReg_execSd v (source_ne a (.head _)) (source_ne b (.tail _ (.head _))) imm
  | ecall => exact writeReg_execEcall v hs

theorem exists_conclude_eq_next (s : State) (x : Except FatalCondition State) : ∃ t, s.conclude x = .next t := by
  cases x with
  | ok t => exact ⟨t, rfl⟩
  | error f => exact ⟨s.raise f, rfl⟩

/-- Every instruction answers a next state from every state. -/
theorem exists_exec_eq_next (i : Instr) (s : State) : ∃ t, exec i s = .next t := by
  cases i with
  | lui | addi | add | sub | sltu | mul | jal | jalr => exact ⟨_, rfl⟩
  | divu | remu | ld | sd => exact exists_conclude_eq_next s _
  | beq a b imm =>
    simp only [exec, execBeq]
    split
    · exact exists_conclude_eq_next s _
    · exact ⟨_, rfl⟩
  | ecall =>
    simp only [exec, execEcall]
    split_ifs <;> exact ⟨_, rfl⟩

/-- Settles O44: the second run ends in the first run's next state with v written to r. -/
theorem onlySourcesAreRead : Obligations.OnlySourcesAreRead := by
  intro i s r v hs hd
  obtain ⟨t, ht⟩ := exists_exec_eq_next i s
  have hu : exec i (s.writeReg r v) = .next (t.writeReg r v) := by rw [exec_writeReg v hs hd, ht]; rfl
  exact ⟨t, _, ht, hu, by simp, by simp, by simp, by simp, fun _ => rfl⟩

end Sys2Proof.Machine
end

section
/-! PROOFS. Data memory through MemRead and MemWrite, and a load behind a store (20_memory.md R32 to R36, R43). -/

namespace Sys2Proof.Machine

/-- Settles O16, from the two answers of MemRead and the bytes of a word read. -/
theorem memReadTestsThenReadsLittleEndian : Obligations.MemReadTestsThenReadsLittleEndian := by
  intro s addr
  refine ⟨fun h8 => ?misaligned, fun h8 hm => ?outOfRange, fun h8 hm => ?inside⟩
  case misaligned => exact (memRead_error_iff s addr _).2 (.inl ⟨h8, rfl⟩)
  case outOfRange => exact (memRead_error_iff s addr _).2 (.inr ⟨h8, hm, rfl⟩)
  case inside =>
    exact ⟨s.mem.readWord addr.toNat, (memRead_ok_iff s addr _).2 ⟨h8, hm, rfl⟩,
      fun j hj => extract_readWord s.mem addr.toNat j hj⟩

theorem sameMemOutside_writeWord (s : State) (a : Nat) (w : Word) :
    SameMemOutside a s { s with mem := s.mem.writeWord a w } := by
  intro b hb
  exact (readByte_writeWord s.mem a b w).trans (if_neg (by omega))

/-- Settles O17. -/
theorem memWriteReplacesOneWord : Obligations.MemWriteReplacesOneWord := by
  intro s addr v
  refine ⟨fun h8 => ?misaligned, fun h8 hm => ?outOfRange, fun h8 hm => ?inside⟩
  case misaligned => exact (memWrite_error_iff s addr v _).2 (.inl ⟨h8, rfl⟩)
  case outOfRange => exact (memWrite_error_iff s addr v _).2 (.inr ⟨h8, hm, rfl⟩)
  case inside =>
    have hread : ({ s with mem := s.mem.writeWord addr.toNat v } : State).memRead addr = .ok v :=
      (memRead_ok_iff _ addr v).2 ⟨h8, hm, (readWord_writeWord_self s.mem addr.toNat v).symm⟩
    exact ⟨s.mem.writeWord addr.toNat v, memWrite_ok h8 hm, hread, sameMemOutside_writeWord s addr.toNat v⟩

/-- An Sd that leaves the core Running is one that completed: any other raised. -/
theorem exec_sd_running {s t : State} {rs1 rs2 : RegId} {imm : Word} (h : exec (.sd rs1 rs2 imm) s = .next t)
    (hrun : t.status = .running) :
    t = State.advancePc { s with mem := s.mem.writeWord (s.readReg rs1 + imm).toNat (s.readReg rs2) } ∧
    (s.readReg rs1 + imm).toNat % 8 = 0 := by
  cases hw : s.memWrite (s.readReg rs1 + imm) (s.readReg rs2) with
  | error f =>
    obtain rfl := Host.Outcome.next.inj ((exec_sd_raise hw).symm.trans h)
    simp at hrun
  | ok u =>
    obtain ⟨h8, hm, _⟩ := (memWrite_ok_iff s u _ _).1 hw
    exact ⟨Host.Outcome.next.inj (h.symm.trans (exec_sd_ok h8 hm)), h8⟩

/-- Different multiples of 8 are at least a word apart. -/
theorem aligned_words_apart {a b : Word} (ha : a.toNat % 8 = 0) (hb : b.toNat % 8 = 0) (hne : b ≠ a) :
    b.toNat + 8 ≤ a.toNat ∨ a.toNat + 8 ≤ b.toNat := by
  have hnat : b.toNat ≠ a.toNat := fun e => hne (BitVec.eq_of_toNat_eq e)
  omega

/-- Where an Ld to a register other than 0 completes, the register holds the word at the effective address. -/
theorem exec_ld_readReg {s : State} {rd rs1 : RegId} {imm : Word} (hrd : rd ≠ 0#5)
    (h8 : (s.readReg rs1 + imm).toNat % 8 = 0) (hm : (s.readReg rs1 + imm).toNat < s.launch.memBytes) :
    ∃ u, exec (.ld rd rs1 imm) s = .next u ∧ u.readReg rd = s.mem.readWord (s.readReg rs1 + imm).toNat :=
  ⟨_, exec_ld_ok h8 hm, by rw [retire_readReg, if_pos ⟨rfl, hrd⟩]⟩

/-- Settles O18: the Sd leaves the base register, so the Ld reads the stored memory at the address the old registers
give. -/
theorem loadSeesTheLastStore : Obligations.LoadSeesTheLastStore := by
  intro s t rs1 rs2 rd rb imm immB hsd hrun hrd hb8 hbm
  obtain ⟨ht, ha8⟩ := exec_sd_running hsd hrun
  have hbase : t.readReg rb = s.readReg rb := by rw [ht]; rfl
  have hlaunch : t.launch = s.launch := exec_launch hsd
  have hmem : t.mem = s.mem.writeWord (s.readReg rs1 + imm).toNat (s.readReg rs2) := by rw [ht]; rfl
  obtain ⟨u, hu, hval⟩ := exec_ld_readReg (s := t) hrd (by rwa [hbase]) (by rwa [hbase, hlaunch])
  rw [hbase, hmem] at hval
  refine ⟨u, hu, fun heq => ?same, fun hne => ?other⟩
  case same => rw [hval, heq, readWord_writeWord_self]
  case other =>
    rw [hval, readWord_writeWord_apart s.mem _ (aligned_words_apart ha8 hb8 hne)]
    exact (memRead_ok_iff s _ _).2 ⟨hb8, hbm, rfl⟩

end Sys2Proof.Machine
end

section
/-! PROOFS. Code bytes and Fetch (20_memory.md R41, R42). -/

namespace Sys2Proof

theorem decodeBytes_of_decodeWord {b0 b1 b2 b3 : Byte} {i : Instr} (rest : List Byte)
    (h : decodeWord (insnOfBytes b0 b1 b2 b3) = some i) :
    decodeBytes (b0 :: b1 :: b2 :: b3 :: rest) = .ok (i, rest) := by
  rw [decodeBytes, h]

theorem codeOfImage_bytesOfInsn_append (w : InsnWord) (bs : List Byte) :
    codeOfImage (bytesOfInsn w ++ bs) = (codeOfImage bs).map (w :: ·) := by
  simp [bytesOfInsn, codeOfImage, insnOfBytes_bytes]

theorem codeOfImage_flatMap_bytesOfInsn (ws : List InsnWord) : codeOfImage (ws.flatMap bytesOfInsn) = some ws := by
  induction ws with
  | nil => rfl
  | cons w ws ih => rw [List.flatMap_cons, codeOfImage_bytesOfInsn_append, ih, Option.map_some]

/-- Settles O5: the bytes of a word assemble to the word, so its second clause is the first at those bytes. -/
theorem imageBytesDecodeLittleEndian : Obligations.ImageBytesDecodeLittleEndian := by
  refine ⟨fun b0 b1 b2 b3 rest i h => decodeBytes_of_decodeWord rest h, fun w i rest h => ?_,
    codeOfImage_flatMap_bytesOfInsn⟩
  exact decodeBytes_of_decodeWord rest (by rwa [insnOfBytes_bytes])

end Sys2Proof

namespace Sys2Proof.Machine

theorem fetch_of_misaligned {l : Launch} {pc : Word} (h4 : pc.toNat % 4 ≠ 0) :
    fetch l pc = .error { cause := .misalignedPC, value := pc } := if_pos h4

theorem fetch_of_length_le_index {l : Launch} {pc : Word} (h4 : pc.toNat % 4 = 0)
    (hlen : l.code.length ≤ Launch.index l pc) : fetch l pc = .error { cause := .fetchOutOfRange, value := pc } := by
  simp [fetch, h4, List.getElem?_eq_none hlen]

theorem fetch_of_decodeWord {l : Launch} {pc : Word} {w : InsnWord} {i : Instr} (h4 : pc.toNat % 4 = 0)
    (hw : l.code[Launch.index l pc]? = some w) (hi : decodeWord w = some i) : fetch l pc = .ok i := by
  simp [fetch, h4, hw, hi]

/-- Below CODE_BASE the distance wraps to one past every code segment that ends at or below 2^64 (D10). -/
theorem length_le_index_of_lt_codeBase {l : Launch} {pc : Word}
    (hend : l.codeBase.toNat + 4 * l.code.length ≤ 2 ^ 64) (hlt : pc.toNat < l.codeBase.toNat) :
    l.code.length ≤ Launch.index l pc := by
  rw [Launch.index, BitVec.toNat_sub]
  omega

/-- Settles O7: a pc below CODE_BASE is the out-of-range case at its wrapped index. -/
theorem fetchTestsAlignmentThenRange : Obligations.FetchTestsAlignmentThenRange :=
  fun _ _ => ⟨fetch_of_misaligned, fetch_of_length_le_index, fun _ _ => fetch_of_decodeWord,
    fun h4 hend hlt => fetch_of_length_le_index h4 (length_le_index_of_lt_codeBase hend hlt)⟩

end Sys2Proof.Machine
end

section
/-! PROOFS. The rows of the opcode map (30_encoding.md R56 to R58): a word satisfies at most one, and decoding is the
record of that one. -/

namespace Sys2Proof

theorem selects_iff (op : Opcode) (w : InsnWord) : op.selects w = true ↔ w &&& op.mask = op.pattern := beq_iff_eq

/-- Two rows differ in a bit both fix, so no word satisfies both. -/
theorem row_unique {w : InsnWord} {op op' : Opcode} (h : w &&& op.mask = op.pattern)
    (h' : w &&& op'.mask = op'.pattern) : op = op' := by
  by_contra hne
  apply rows_conflict op op' hne
  rw [← h, ← h']
  ext i
  simp only [BitVec.getElem_and, BitVec.getElem_xor, BitVec.getElem_zero]
  cases w[i] <;> cases op.mask[i] <;> cases op'.mask[i] <;> rfl

theorem decodeWord_of_row {w : InsnWord} {op : Opcode} (h : w &&& op.mask = op.pattern) :
    decodeWord w = some (op.build w) := by
  obtain ⟨op', hfind⟩ : ∃ op', Opcode.all.find? (·.selects w) = some op' :=
    Option.isSome_iff_exists.1 (List.find?_isSome.2 ⟨op, mem_opcodes op, (selects_iff op w).2 h⟩)
  have hrow : w &&& op'.mask = op'.pattern := (selects_iff op' w).1 (List.find?_some (p := (Opcode.selects · w)) hfind)
  rw [decodeWord, hfind, row_unique h hrow, Option.map_some]

theorem decodeWord_of_no_row {w : InsnWord} (h : ∀ op : Opcode, w &&& op.mask ≠ op.pattern) :
    decodeWord w = none := by
  have hfind : Opcode.all.find? (·.selects w) = none :=
    List.find?_eq_none.2 fun op _ hsel => h op ((selects_iff op w).1 hsel)
  rw [decodeWord, hfind, Option.map_none]

theorem decodeWord_eq_some_iff (w : InsnWord) (i : Instr) :
    decodeWord w = some i ↔ ∃ op : Opcode, w &&& op.mask = op.pattern ∧ op.build w = i := by
  constructor
  · intro h
    by_cases hrow : ∃ op : Opcode, w &&& op.mask = op.pattern
    · obtain ⟨op, hop⟩ := hrow
      exact ⟨op, hop, Option.some.inj ((decodeWord_of_row hop).symm.trans h)⟩
    · rw [decodeWord_of_no_row (not_exists.1 hrow)] at h
      nomatch h
  · rintro ⟨op, hop, rfl⟩
    exact decodeWord_of_row hop

/-- Settles O1. -/
theorem opcodeMapIsUnambiguous : Obligations.OpcodeMapIsUnambiguous :=
  ⟨rfl, fun _ _ _ => row_unique, fun _ _ => decodeWord_of_row, fun _ => decodeWord_of_no_row⟩

end Sys2Proof
end

section
/-! PROOFS. From a record to its word and back (30_encoding.md R53, R63): the word satisfies the record's row, and the
row takes the record's fields from it. -/

namespace Sys2Proof

/-- The encoder puts the row's fixed bits in place, whatever the operands. -/
theorem encode_row (i : Instr) : encode i &&& i.opcode.mask = i.opcode.pattern := by
  cases i with
  | lui => exact Laws.EncodeMatchesRow.lui _ _
  | jal => exact Laws.EncodeMatchesRow.jal _ _
  | jalr => exact Laws.EncodeMatchesRow.jalr _ _ _
  | beq => exact Laws.EncodeMatchesRow.beq _ _ _
  | ld => exact Laws.EncodeMatchesRow.ld _ _ _
  | sd => exact Laws.EncodeMatchesRow.sd _ _ _
  | addi => exact Laws.EncodeMatchesRow.addi _ _ _
  | add => exact Laws.EncodeMatchesRow.add _ _ _
  | sub => exact Laws.EncodeMatchesRow.sub _ _ _
  | sltu => exact Laws.EncodeMatchesRow.sltu _ _ _
  | mul => exact Laws.EncodeMatchesRow.mul _ _ _
  | divu => exact Laws.EncodeMatchesRow.divu _ _ _
  | remu => exact Laws.EncodeMatchesRow.remu _ _ _
  | ecall => exact Laws.EncodeMatchesRow.ecall

/-- A row reads its record back from the record's word: the registers always, the immediate where it is in range. -/
theorem build_encode {i : Instr} (hwf : i.wf = true) : i.opcode.build (encode i) = i := by
  cases i with
  | lui rd imm =>
    simp [Instr.opcode, Opcode.build, encode, register_fields .lui rd 0 0 imm, immU_encodeU _ _ (of_decide_eq_true hwf)]
  | jal rd imm =>
    simp [Instr.opcode, Opcode.build, encode, register_fields .jal rd 0 0 imm, immJ_encodeJ _ _ (of_decide_eq_true hwf)]
  | beq rs1 rs2 imm =>
    simp [Instr.opcode, Opcode.build, encode, register_fields .beq rs1 rs2 0 imm,
      immB_encodeB _ _ _ (of_decide_eq_true hwf)]
  | sd rs1 rs2 imm =>
    simp [Instr.opcode, Opcode.build, encode, register_fields .sd rs1 rs2 0 imm,
      immS_encodeS _ _ _ (of_decide_eq_true hwf)]
  | jalr rd rs1 imm | ld rd rs1 imm | addi rd rs1 imm =>
    simp [Instr.opcode, Opcode.build, encode, register_fields _ rd rs1 0 imm,
      immI_encodeI _ _ _ (of_decide_eq_true hwf)]
  | add rd rs1 rs2 | sub rd rs1 rs2 | sltu rd rs1 rs2 | mul rd rs1 rs2 | divu rd rs1 rs2 | remu rd rs1 rs2 =>
    simp [Instr.opcode, Opcode.build, encode, register_fields _ rd rs1 rs2 0]
  | ecall => rfl

/-- Settles O2: the word of a record satisfies the record's row, and that row builds the record. -/
theorem decodeOfEncodeIsTheRecord : Obligations.DecodeOfEncodeIsTheRecord := by
  intro i hwf
  rw [decodeWord_of_row (encode_row i), build_encode hwf]

end Sys2Proof
end

section
/-! PROOFS. From a word to its record and back (30_encoding.md R53 to R57, R63): a row fixes the fields its record does
not hold, so record and row together hold every bit of the word. -/

namespace Sys2Proof

/-- A field that the mask covers is the pattern's. -/
theorem masked_field {w mask pattern : InsnWord} (h : w &&& mask = pattern) (start len : Nat)
    (hm : mask.extractLsb' start len = BitVec.allOnes len) :
    w.extractLsb' start len = pattern.extractLsb' start len := by
  rw [← h, BitVec.extractLsb'_and, hm, BitVec.and_allOnes]

theorem opcodeField_of_row {w : InsnWord} {op : Opcode} (h : w &&& op.mask = op.pattern) :
    opcodeField w = opcodeField op.pattern :=
  masked_field h 0 7 (by cases op <;> rfl)

/-! Format by format (R54, R55), the encoder puts each bit of the fields and of the gathered immediate back where it
was. -/

theorem encodeR_fields {op : Opcode} {w : InsnWord} (hop : opcodeField w = opcodeField op.pattern)
    (hf3 : funct3Field w = funct3Field op.pattern) (hf7 : funct7Field w = funct7Field op.pattern) :
    encodeR op (rdField w) (rs1Field w) (rs2Field w) = w := by
  apply BitVec.eq_of_getLsbD_eq
  intro i hi
  rw [encodeR, ← hop, ← hf3, ← hf7]
  simp only [rdField, rs1Field, rs2Field, funct3Field, opcodeField, funct7Field]
  interval_cases i <;> simp only [BitVec.getLsbD_append, BitVec.getLsbD_extractLsb'] <;> simp

theorem encodeI_fields {op : Opcode} {w : InsnWord} (hop : opcodeField w = opcodeField op.pattern)
    (hf3 : funct3Field w = funct3Field op.pattern) : encodeI op (rdField w) (rs1Field w) (immI w) = w := by
  apply BitVec.eq_of_getLsbD_eq
  intro i hi
  rw [encodeI, ← hop, ← hf3]
  simp only [immI, rdField, rs1Field, funct3Field, opcodeField]
  interval_cases i <;> simp only [BitVec.getLsbD_append, BitVec.getLsbD_extractLsb', BitVec.getLsbD_signExtend] <;> simp

theorem encodeS_fields {op : Opcode} {w : InsnWord} (hop : opcodeField w = opcodeField op.pattern)
    (hf3 : funct3Field w = funct3Field op.pattern) : encodeS op (rs1Field w) (rs2Field w) (immS w) = w := by
  apply BitVec.eq_of_getLsbD_eq
  intro i hi
  rw [encodeS, ← hop, ← hf3]
  simp only [immS, rs2Field, rs1Field, funct3Field, opcodeField]
  interval_cases i <;> simp only [BitVec.getLsbD_append, BitVec.getLsbD_extractLsb', BitVec.getLsbD_signExtend] <;> simp

theorem encodeB_fields {op : Opcode} {w : InsnWord} (hop : opcodeField w = opcodeField op.pattern)
    (hf3 : funct3Field w = funct3Field op.pattern) : encodeB op (rs1Field w) (rs2Field w) (immB w) = w := by
  apply BitVec.eq_of_getLsbD_eq
  intro i hi
  rw [encodeB, ← hop, ← hf3]
  simp only [immB, rs2Field, rs1Field, funct3Field, opcodeField]
  interval_cases i <;> simp only [BitVec.getLsbD_append, BitVec.getLsbD_extractLsb', BitVec.getLsbD_signExtend] <;> simp

theorem encodeU_fields {op : Opcode} {w : InsnWord} (hop : opcodeField w = opcodeField op.pattern) :
    encodeU op (rdField w) (immU w) = w := by
  apply BitVec.eq_of_getLsbD_eq
  intro i hi
  rw [encodeU, ← hop]
  simp only [immU, rdField, opcodeField]
  interval_cases i <;> simp only [BitVec.getLsbD_append, BitVec.getLsbD_extractLsb', BitVec.getLsbD_signExtend] <;> simp

theorem encodeJ_fields {op : Opcode} {w : InsnWord} (hop : opcodeField w = opcodeField op.pattern) :
    encodeJ op (rdField w) (immJ w) = w := by
  apply BitVec.eq_of_getLsbD_eq
  intro i hi
  rw [encodeJ, ← hop]
  simp only [immJ, rdField, opcodeField]
  interval_cases i <;> simp only [BitVec.getLsbD_append, BitVec.getLsbD_extractLsb', BitVec.getLsbD_signExtend] <;> simp

/-- A word of a row is put together again from the fields the row takes and those it fixes. -/
theorem encode_build {w : InsnWord} {op : Opcode} (h : w &&& op.mask = op.pattern) : encode (op.build w) = w := by
  have hop : opcodeField w = opcodeField op.pattern := opcodeField_of_row h
  cases op with
  | lui => exact encodeU_fields hop
  | jal => exact encodeJ_fields hop
  | jalr | ld | addi => exact encodeI_fields hop (masked_field h 12 3 rfl)
  | beq => exact encodeB_fields hop (masked_field h 12 3 rfl)
  | sd => exact encodeS_fields hop (masked_field h 12 3 rfl)
  | add | sub | sltu | mul | divu | remu =>
    exact encodeR_fields hop (masked_field h 12 3 rfl) (masked_field h 25 7 rfl)
  | ecall => exact h.symm.trans (BitVec.and_allOnes)

/-- The immediate a row takes from a word is a sign-extended field, even where its lowest bit is appended. -/
theorem build_wf (op : Opcode) (w : InsnWord) : (op.build w).wf = true := by
  cases op with
  | lui => exact decide_eq_true (fits20_sext _)
  | jal => exact decide_eq_true (fits21_sext (append_zero_even _ _))
  | beq => exact decide_eq_true (fits13_sext (append_zero_even _ _))
  | jalr | ld | sd | addi => exact decide_eq_true (fits12_sext _)
  | add | sub | sltu | mul | divu | remu | ecall => rfl

/-- Settles O3: a word that decodes satisfies a row, and the record is what that row builds. -/
theorem encodeOfDecodeIsTheWord : Obligations.EncodeOfDecodeIsTheWord := by
  intro w i h
  obtain ⟨op, hrow, rfl⟩ := (decodeWord_eq_some_iff w i).1 h
  exact ⟨build_wf op w, encode_build hrow⟩

/-- Only a well-formed record has a word. -/
theorem encode?_eq_some_iff (i : Instr) (w : InsnWord) : encode? i = some w ↔ i.wf = true ∧ encode i = w := by
  simp [encode?]

/-- The eleven words, as the encoder gives them. -/
theorem encode?_worked_words :
    ∀ p ∈ [(Instr.addi 5 0 0, 0x00000293#32), (.ld 5 11 8, 0x0085B283#32), (.sd 2 5 (-8), 0xFE513C23#32),
      (.beq 6 7 16, 0x00730863#32), (.jal 0 (-12), 0xFF5FF06F#32), (.jal 1 24, 0x018000EF#32),
      (.jalr 0 1 0, 0x00008067#32), (.lui 11 1, 0x000015B7#32), (.sub 10 5 6, 0x40628533#32),
      (.divu 10 5 6, 0x0262D533#32), (.ecall, 0x00000073#32)], encode? p.1 = some p.2 := by
  decide

/-- Settles O4: the encoder is run on the eleven records, and what it gives is read back as of every record. -/
theorem workedWordsEncodeAndDecode : Obligations.WorkedWordsEncodeAndDecode := by
  refine ⟨fun p hp => ?_, fun i hwf => if_neg (by simp [hwf])⟩
  have henc : encode? p.1 = some p.2 := encode?_worked_words p hp
  obtain ⟨hwf, hword⟩ := (encode?_eq_some_iff p.1 p.2).1 henc
  exact ⟨henc, by rw [← hword]; exact decodeOfEncodeIsTheRecord p.1 hwf⟩

end Sys2Proof
end

section
/-! PROOFS. Assembly lines (30_encoding.md R61, R62): within its range an operand is its record's immediate as a signed
integer; lui's alone may also be written unsigned, and is then the 20-bit field. -/

namespace Sys2Proof.Machine

/-- A 64-bit word holds every operand of R61 as it is. -/
theorem toInt_ofInt_of_operand {n : Int} (h : -1048576 ≤ n ∧ n ≤ 1048575) : (BitVec.ofInt 64 n).toInt = n :=
  BitVec.toInt_ofInt_eq_self (by decide) (by omega) (by omega)

/-- An operand that is taken as it is wherever it fits stands for the one immediate with its value. -/
theorem operand_eq_some_iff {fits : Int → Prop} [DecidablePred fits]
    (hsmall : ∀ n, fits n → -1048576 ≤ n ∧ n ≤ 1048575) (n : Int) (imm : Word) :
    (if fits n then some (BitVec.ofInt 64 n) else none) = some imm ↔ fits imm.toInt ∧ imm.toInt = n := by
  constructor
  · intro h
    obtain ⟨hn, ⟨⟩⟩ := Option.ite_none_right_eq_some.1 h
    rw [toInt_ofInt_of_operand (hsmall n hn)]
    exact ⟨hn, rfl⟩
  · rintro ⟨hfits, rfl⟩
    rw [if_pos hfits, BitVec.ofInt_toInt]

theorem asmImm12_eq_some_iff (n : Int) (imm : Word) : asmImm12 n = some imm ↔ immFits12 imm ∧ imm.toInt = n :=
  operand_eq_some_iff (fits := fun n => -2048 ≤ n ∧ n ≤ 2047) (fun _ _ => by omega) n imm

theorem asmOffset13_eq_some_iff (n : Int) (imm : Word) :
    asmOffset13 n = some imm ↔ immFits13 imm ∧ imm.toInt = n :=
  operand_eq_some_iff (fits := fun n => -4096 ≤ n ∧ n ≤ 4094 ∧ n % 2 = 0) (fun _ _ => by omega) n imm

theorem asmOffset21_eq_some_iff (n : Int) (imm : Word) :
    asmOffset21 n = some imm ↔ immFits21 imm ∧ imm.toInt = n :=
  operand_eq_some_iff (fits := fun n => -1048576 ≤ n ∧ n ≤ 1048574 ∧ n % 2 = 0) (fun _ _ => by omega) n imm

theorem fits20_of_asmImm20 {n : Int} {imm : Word} (h : asmImm20 n = some imm) : immFits20 imm := by
  obtain ⟨_, ⟨⟩⟩ := Option.ite_none_right_eq_some.1 h
  exact fits20_sext _

theorem asmImm20_toInt {imm : Word} (h : immFits20 imm) : asmImm20 imm.toInt = some imm := by
  have hfield : (BitVec.ofInt 20 imm.toInt).toInt = imm.toInt :=
    BitVec.toInt_ofInt_eq_self (by decide) (by omega) (by omega)
  rw [asmImm20, if_pos (by omega)]
  exact congrArg some (BitVec.eq_of_toInt_eq ((BitVec.toInt_signExtend_of_le (by decide)).trans hfield))

theorem assemble_disassemble {i : Instr} (hwf : i.wf = true) : assemble (disassemble i) = some i := by
  cases i with
  | lui => simp [disassemble, assemble, asmImm20_toInt (of_decide_eq_true hwf)]
  | jal => simp [disassemble, assemble, (asmOffset21_eq_some_iff _ _).2 ⟨of_decide_eq_true hwf, rfl⟩]
  | beq => simp [disassemble, assemble, (asmOffset13_eq_some_iff _ _).2 ⟨of_decide_eq_true hwf, rfl⟩]
  | jalr | ld | sd | addi => simp [disassemble, assemble, (asmImm12_eq_some_iff _ _).2 ⟨of_decide_eq_true hwf, rfl⟩]
  | add | sub | sltu | mul | divu | remu | ecall => rfl

theorem wf_of_assemble {a : AsmLine} {i : Instr} (h : assemble a = some i) : i.wf = true := by
  cases a with
  | lui rd n =>
    obtain ⟨imm, himm, rfl⟩ := Option.map_eq_some_iff.1 h
    exact decide_eq_true (fits20_of_asmImm20 himm)
  | jal rd n =>
    obtain ⟨imm, himm, rfl⟩ := Option.map_eq_some_iff.1 h
    exact decide_eq_true ((asmOffset21_eq_some_iff _ _).1 himm).1
  | beq rs1 rs2 n =>
    obtain ⟨imm, himm, rfl⟩ := Option.map_eq_some_iff.1 h
    exact decide_eq_true ((asmOffset13_eq_some_iff _ _).1 himm).1
  | jalr | ld | sd | addi =>
    obtain ⟨imm, himm, rfl⟩ := Option.map_eq_some_iff.1 h
    exact decide_eq_true ((asmImm12_eq_some_iff _ _).1 himm).1
  | add | sub | sltu | mul | divu | remu | ecall =>
    obtain rfl := Option.some.inj h
    rfl

/-- Settles O6. -/
theorem assembleInvertsDisassemble : Obligations.AssembleInvertsDisassemble :=
  ⟨fun _ => assemble_disassemble, fun _ _ => wf_of_assemble⟩

end Sys2Proof.Machine
end

section
/-! PROOFS. Fetching a word that is no instruction (30_encoding.md R58). -/

namespace Sys2Proof.Machine

theorem fetch_of_decodeWord_none {l : Launch} {pc : Word} {w : InsnWord} (h4 : pc.toNat % 4 = 0)
    (hw : l.code[Launch.index l pc]? = some w) (hnone : decodeWord w = none) :
    fetch l pc = .error { cause := .illegalInstruction, value := w.setWidth 64 } := by
  simp [fetch, h4, hw, hnone]

/-- A Running core takes the fatal condition its fetch met (40_cycle.md R70). -/
theorem step_of_fetch_error {s : State} {f : FatalCondition} (hrun : s.status = .running)
    (hfetch : fetch s.launch s.pc = .error f) : step s = .next (s.raise f) := by
  simp [step, hrun, hfetch]

/-- Settles O10: a word of no row decodes to nothing, so its fetch meets the fatal condition. -/
theorem illegalWordRaisesWhenFetched : Obligations.IllegalWordRaisesWhenFetched := by
  intro s w hrun h4 hw hrow
  have hfetch := fetch_of_decodeWord_none h4 hw (decodeWord_of_no_row hrow)
  exact ⟨_, step_of_fetch_error hrun hfetch, raise_effect s _⟩

end Sys2Proof.Machine
end

section
/-! PROOFS. The cycle (40_cycle.md R70): a Running core has its one step, the execution of the record it fetched, and
the other two statuses have none. -/

namespace Sys2Proof.Machine

/-- A Running core executes the record its fetch gave. -/
theorem step_of_fetch_ok {s : State} {i : Instr} (hrun : s.status = .running) (hfetch : fetch s.launch s.pc = .ok i) :
    step s = exec i s := by
  simp [step, hrun, hfetch]

/-- Settles O8. -/
theorem stepRunsTheFetchedRecord : Obligations.StepRunsTheFetchedRecord :=
  fun _ _ _ hrun h4 hw hi => step_of_fetch_ok hrun (fetch_of_decodeWord h4 hw hi)

/-- The fetch raises, which is a next state, or gives a record, and every record's execution answers one. -/
theorem exists_step_eq_next {s : State} (hrun : s.status = .running) : ∃ t, step s = .next t := by
  cases hfetch : fetch s.launch s.pc with
  | error f => exact ⟨s.raise f, step_of_fetch_error hrun hfetch⟩
  | ok i => rw [step_of_fetch_ok hrun hfetch]; exact exists_exec_eq_next i s

/-- Settles O11. -/
theorem coreStepsExactlyWhileRunning : Obligations.CoreStepsExactlyWhileRunning :=
  fun _ => ⟨exists_step_eq_next, fun hne _ hstep => hne (running_of_step hstep)⟩

end Sys2Proof.Machine
end

section
/-! PROOFS. Placing a word where the next fetch looks (the model's own, log 5): the pc is rounded down to a multiple of
4, and the word is found there whether it replaced a record of the code store or became the whole of it. -/

namespace Sys2Proof.Machine

/-- Clearing the two low bits of a pc rounds it down to a multiple of 4. -/
theorem toNat_clearLowBits (pc : Word) : (pc &&& ~~~3#64).toNat = 4 * (pc.toNat / 4) := by
  have hshift : pc &&& ~~~3#64 = pc >>> 2 <<< 2 := by rw [BitVec.shiftLeft_ushiftRight]; rfl
  rw [hshift, BitVec.toNat_shiftLeft, BitVec.toNat_ushiftRight, Nat.shiftLeft_eq, Nat.shiftRight_eq_div_pow]
  omega

theorem clearLowBits_aligned (pc : Word) : (pc &&& ~~~3#64).toNat % 4 = 0 := by
  rw [toNat_clearLowBits]; omega

theorem clearLowBits_of_aligned {pc : Word} (h4 : pc.toNat % 4 = 0) : pc &&& ~~~3#64 = pc :=
  BitVec.eq_of_toNat_eq (by rw [toNat_clearLowBits]; omega)

/-- The placed word stands at the index of its pc. -/
theorem getElem?_place (l : Launch) (pc : Word) (w : InsnWord) :
    (Launch.place l pc w).code[Launch.index (Launch.place l pc w) pc]? = some w := by
  by_cases hin : Launch.index l pc < l.code.length
  · rw [Launch.place, if_pos hin]
    exact List.getElem?_set_self hin
  · rw [Launch.place, if_neg hin]
    simp [Launch.index]

theorem place_changes_code_only (l : Launch) (pc : Word) (w : InsnWord) :
    ∃ base code, Launch.place l pc w = { l with codeBase := base, code := code } := by
  by_cases hin : Launch.index l pc < l.code.length
  · exact ⟨l.codeBase, _, if_pos hin⟩
  · exact ⟨pc, _, if_neg hin⟩

/-- All 32 bits of the word are placed. -/
theorem withFetchWord_toNat (s : State) (w : InsnWord) : s.withFetchWord 32 w.toNat = s.placeWord w := by
  rw [State.withFetchWord, Nat.mod_eq_of_lt w.isLt, BitVec.ofNat_toNat, BitVec.setWidth_eq]

theorem step_placeWord (s : State) {w : InsnWord} {i : Instr} (hi : decodeWord w = some i) :
    step (s.placeWord w) = exec i (s.placeWord w) :=
  stepRunsTheFetchedRecord _ w i rfl (clearLowBits_aligned s.pc) (getElem?_place s.launch _ w) hi

theorem placeWord_of_running {s : State} (hrun : s.status = .running) (h4 : s.pc.toNat % 4 = 0) (w : InsnWord) :
    s.placeWord w = { s with launch := Launch.place s.launch s.pc w } := by
  rw [State.placeWord, clearLowBits_of_aligned h4, ← hrun]

/-- Settles O12. -/
theorem placedWordIsRunNext : Obligations.PlacedWordIsRunNext := by
  refine ⟨fun s w i hi => ?_, fun s w hrun h4 => ?_⟩
  · rw [withFetchWord_toNat]
    exact step_placeWord s hi
  · obtain ⟨base, code, hplace⟩ := place_changes_code_only s.launch s.pc w
    exact ⟨base, code, by rw [withFetchWord_toNat, placeWord_of_running hrun h4, hplace]⟩

end Sys2Proof.Machine
end

section
/-! PROOFS. What the host sees of a state (40_cycle.md R76): the status chooses the form of the view, and each form
holds the output and what that status shows beside it. -/

namespace Sys2Proof.Machine

theorem hostView_of_running {s : State} (h : s.status = .running) : hostView s = .running s.stdout := by
  simp [hostView, h]

theorem hostView_of_halted {s : State} (h : s.status = .halted) : hostView s = .halted s.exitCode s.stdout := by
  simp [hostView, h]

theorem hostView_of_faulted {s : State} (h : s.status = .faulted) : hostView s = .faulted s.faultCause s.stdout := by
  simp [hostView, h]

/-- The status a view shows by its form. -/
def HostView.status : HostView → Status
  | .running _ => .running
  | .halted _ _ => .halted
  | .faulted _ _ => .faulted

theorem hostView_status (s : State) : (hostView s).status = s.status := by
  cases h : s.status with
  | running => rw [hostView_of_running h]; rfl
  | halted => rw [hostView_of_halted h]; rfl
  | faulted => rw [hostView_of_faulted h]; rfl

theorem status_eq_of_hostView_eq {s t : State} (h : hostView t = hostView s) : t.status = s.status := by
  rw [← hostView_status t, h, hostView_status]

theorem hostView_eq_iff (s t : State) :
    hostView t = hostView s ↔
      t.status = s.status ∧ t.stdout = s.stdout ∧ (s.status = .halted → t.exitCode = s.exitCode) ∧
      (s.status = .faulted → t.faultCause = s.faultCause) := by
  by_cases hst : t.status = s.status
  · cases hs : s.status with
    | running => simp [hostView_of_running hs, hostView_of_running (hst.trans hs), hst, hs]
    | halted => simp [hostView_of_halted hs, hostView_of_halted (hst.trans hs), hst, hs, and_comm]
    | faulted => simp [hostView_of_faulted hs, hostView_of_faulted (hst.trans hs), hst, hs, and_comm]
  · exact iff_of_false (fun h => hst (status_eq_of_hostView_eq h)) fun h => hst h.1

/-- Settles O52. -/
theorem hostSeesOnlyStatusAndOutput : Obligations.HostSeesOnlyStatusAndOutput :=
  ⟨fun _ => ⟨hostView_of_running, hostView_of_halted, hostView_of_faulted⟩, hostView_eq_iff⟩

end Sys2Proof.Machine
end

section
/-! PROOFS. Lui (41_upper_immediate.md R80): the low 32 bits of the shifted operand are its 20-bit field over twelve
zeros, so the value depends on that field alone, and is the shifted operand where the operand is its field extended. -/

namespace Sys2Proof.Machine

/-- Bits 0 to 11 are shifted in, bits 12 to 31 are the operand's low 20. -/
theorem setWidth_shiftLeft_twelve (imm : Word) : (imm <<< 12).setWidth 32 = imm.extractLsb' 0 20 ++ 0#12 := by
  apply BitVec.eq_of_getLsbD_eq
  intro i hi
  rw [BitVec.getLsbD_append]
  by_cases hlow : i < 12
  · simp [hlow]
  · have hfield : i - 12 < 20 := by omega
    simp [hlow, hi, hfield]

/-- Both sides are the 64-bit word of 2^12 times the field read as a signed integer. -/
theorem signExtend_append_zeros (x : BitVec 20) : (x ++ 0#12).signExtend 64 = x.signExtend 64 <<< 12 := by
  calc (x ++ 0#12).signExtend 64
    _ = BitVec.ofInt 64 (2 ^ 12 * x.toInt) := congrArg (BitVec.ofInt 64) BitVec.toInt_append_zero
    _ = x.signExtend 64 * BitVec.twoPow 64 12 := by rw [BitVec.ofInt_mul, BitVec.mul_comm]; rfl
    _ = x.signExtend 64 <<< 12 := (BitVec.shiftLeft_eq_mul_twoPow _ 12).symm

theorem exec_lui (rd : RegId) (imm : Word) (s : State) :
    exec (.lui rd imm) s = .next (s.retire rd (((imm <<< 12).setWidth 32).signExtend 64)) := by
  rw [← extract_low]; rfl

/-- Settles O19: the word is lui's row, the effect is retire's, and the value is the field over twelve zeros. -/
theorem luiWritesUpperImmediate : Obligations.LuiWritesUpperImmediate := by
  refine ⟨fun w hrow => decodeWord_of_row (op := .lui) hrow,
    fun rd imm s => ⟨_, exec_lui rd imm s, retire_effect s rd _⟩, fun imm imm' hfield => ?_, fun imm hfits => ?_⟩
  · rw [setWidth_shiftLeft_twelve, setWidth_shiftLeft_twelve, hfield]
  · rw [setWidth_shiftLeft_twelve, signExtend_append_zeros, sext_of_fits20 hfits]

end Sys2Proof.Machine
end

section
/-! PROOFS. Control transfer (42_control_transfer.md R85 to R87): Jal and Jalr are one linking jump to two targets; Beq
jumps without a link where its registers are equal and advances where they are not. -/

namespace Sys2Proof.Machine

/-! The linking jump, R85 and R86. -/

theorem linkAndJump_aligned_effect (rd : RegId) (s : State) {target : Word} (h4 : target.toNat % 4 = 0) :
    (linkAndJump rd target s).readReg rd = (if rd = 0#5 then 0#64 else s.pc + 4#64) ∧
    SameRegsBut rd s (linkAndJump rd target s) ∧ (linkAndJump rd target s).pc = target ∧
    SameMem s (linkAndJump rd target s) ∧ SameControl s (linkAndJump rd target s) := by
  rcases linkAndJump_cases rd target s with ⟨_, e⟩ | ⟨hne, _⟩
  · rw [e]; exact link_effect s rd target
  · exact absurd h4 hne

/-- The free value in rd is nothing a raise speaks of. -/
theorem linkAndJump_misaligned_effect (rd : RegId) (s : State) {target : Word} (hne : target.toNat % 4 ≠ 0) :
    RaisesQuietly { cause := .misalignedPC, value := target } s (linkAndJump rd target s) := by
  rcases linkAndJump_cases rd target s with ⟨h4, _⟩ | ⟨_, e⟩
  · exact absurd h4 hne
  · rw [e]; simp [RaisesQuietly, RaisesAt]

theorem exec_jal (rd : RegId) (imm : Word) (s : State) :
    exec (.jal rd imm) s = .next (linkAndJump rd (s.pc + imm) s) := rfl

/-- The target is the sum of the old x[rs1], read before the link is written (R86). -/
theorem exec_jalr (rd rs1 : RegId) (imm : Word) (s : State) :
    exec (.jalr rd rs1 imm) s = .next (linkAndJump rd (s.readReg rs1 + imm) s) := rfl

/-- Settles O20: the word is jal's row, the effect is the linking jump's to pc + imm. -/
theorem jalLinksAndJumps : Obligations.JalLinksAndJumps :=
  ⟨fun _ hrow => decodeWord_of_row (op := .jal) hrow, fun rd imm s =>
    ⟨fun h4 => ⟨_, exec_jal rd imm s, linkAndJump_aligned_effect rd s h4⟩,
      fun hne => ⟨_, exec_jal rd imm s, linkAndJump_misaligned_effect rd s hne⟩⟩⟩

/-- Settles O21: the word is jalr's row, the effect is the linking jump's to the old x[rs1] + imm. -/
theorem jalrLinksAndJumps : Obligations.JalrLinksAndJumps :=
  ⟨fun _ hrow => decodeWord_of_row (op := .jalr) hrow, fun rd rs1 imm s =>
    ⟨fun h4 => ⟨_, exec_jalr rd rs1 imm s, linkAndJump_aligned_effect rd s h4⟩,
      fun hne => ⟨_, exec_jalr rd rs1 imm s, linkAndJump_misaligned_effect rd s hne⟩⟩⟩

/-! The branch, R87. -/

theorem setPc_effect (s : State) (p : Word) :
    SameRegs s { s with pc := p } ∧ SameMem s { s with pc := p } ∧ SameControl s { s with pc := p } :=
  ⟨fun _ => rfl, fun _ => rfl, rfl, rfl, rfl, rfl, rfl, rfl⟩

theorem exec_beq_of_eq {s : State} {rs1 rs2 : RegId} (imm : Word) (heq : s.readReg rs1 = s.readReg rs2) :
    exec (.beq rs1 rs2 imm) s = s.conclude (s.jumpPc (s.pc + imm)) := if_pos (beq_iff_eq.2 heq)

/-- Not taken, the offset is not read, so a misaligned one does no harm. -/
theorem exec_beq_of_ne {s : State} {rs1 rs2 : RegId} (imm : Word) (hne : s.readReg rs1 ≠ s.readReg rs2) :
    exec (.beq rs1 rs2 imm) s = .next s.advancePc := if_neg fun h => hne (beq_iff_eq.1 h)

/-- Settles O22: the word is beq's row; taken, it ends as JumpPc ends (O15), and not taken as AdvancePc does. -/
theorem beqBranchesOnEquality : Obligations.BeqBranchesOnEquality := by
  refine ⟨fun w hrow => decodeWord_of_row (op := .beq) hrow, fun rs1 rs2 imm s =>
    ⟨fun heq h4 => ?taken, fun hne => ?notTaken, fun heq h4 => ?misaligned⟩⟩
  case taken =>
    refine ⟨{ s with pc := s.pc + imm }, ?_, rfl, setPc_effect s _⟩
    rw [exec_beq_of_eq imm heq, (jumpPcNeedsAlignedTarget s _).1 h4, conclude_ok]
  case notTaken => exact ⟨s.advancePc, exec_beq_of_ne imm hne, advancePc_pc s, setPc_effect s _⟩
  case misaligned =>
    refine ⟨_, ?_, raise_effect s _⟩
    rw [exec_beq_of_eq imm heq, (jumpPcNeedsAlignedTarget s _).2 h4, conclude_error]

end Sys2Proof.Machine
end

section
/-! PROOFS. Ld and Sd (43_load_store.md R95 to R97): each ends as MemRead or MemWrite (O16, O17) ends at the effective
address x[rs1] + imm. -/

namespace Sys2Proof.Machine

/-- Settles O23: the word is ld's row; Ld raises what MemRead raises, whatever rd is, and else retires the word read. -/
theorem ldLoadsTheWord : Obligations.LdLoadsTheWord := by
  refine ⟨fun w hrow => decodeWord_of_row (op := .ld) hrow, fun rd rs1 imm s => ?_⟩
  obtain ⟨hmisaligned, houtOfRange, _⟩ := memReadTestsThenReadsLittleEndian s (s.readReg rs1 + imm)
  refine ⟨fun h8 hm => ?loaded, fun h8 => ?misaligned, fun h8 hm => ?outOfRange⟩
  case loaded =>
    exact ⟨_, _, exec_ld_ok h8 hm, fun j hj => extract_readWord s.mem _ j hj, retire_effect s rd _⟩
  case misaligned => exact ⟨_, exec_ld_raise (hmisaligned h8), raise_effect s _⟩
  case outOfRange => exact ⟨_, exec_ld_raise (houtOfRange h8 hm), raise_effect s _⟩

theorem readByte_writeWord_inside (m : Memory) (a : Nat) (w : Word) {j : Nat} (hj : j < 8) :
    (m.writeWord a w).readByte (a + j) = w.extractLsb' (8 * j) 8 := by
  rw [readByte_writeWord, if_pos (by omega), Nat.add_sub_cancel_left]

/-- The frame of a store that completes: memory aside, only the pc moves. -/
theorem setMem_advancePc_effect (s : State) (m : Memory) :
    SameRegs s (State.advancePc { s with mem := m }) ∧ (State.advancePc { s with mem := m }).pc = s.pc + 4#64 ∧
    SameControl s (State.advancePc { s with mem := m }) :=
  ⟨fun _ => rfl, rfl, rfl, rfl, rfl, rfl, rfl, rfl⟩

/-- Settles O24: the word is sd's row; Sd raises what MemWrite raises, and else stores x[rs2] and advances the pc. -/
theorem sdStoresTheWord : Obligations.SdStoresTheWord := by
  refine ⟨fun w hrow => decodeWord_of_row (op := .sd) hrow, fun rs1 rs2 imm s => ?_⟩
  obtain ⟨hmisaligned, houtOfRange, _⟩ := memWriteReplacesOneWord s (s.readReg rs1 + imm) (s.readReg rs2)
  refine ⟨fun h8 hm => ?stored, fun h8 => ?misaligned, fun h8 hm => ?outOfRange⟩
  case stored =>
    exact ⟨_, exec_sd_ok h8 hm, fun j hj => readByte_writeWord_inside s.mem _ _ hj,
      sameMemOutside_writeWord s _ _, setMem_advancePc_effect s _⟩
  case misaligned => exact ⟨_, exec_sd_raise (hmisaligned h8), raise_effect s _⟩
  case outOfRange => exact ⟨_, exec_sd_raise (houtOfRange h8 hm), raise_effect s _⟩

end Sys2Proof.Machine
end

section
/-! PROOFS. Addi, Add, Sub, Sltu (44_integer_arithmetic.md R105 to R109): each retires one value, which is its rule's
exact sum or difference narrowed to 64 bits, or the outcome of its comparison; and property E1, that Sub undoes Add. -/

namespace Sys2Proof.Machine

/-! What each instruction does, with the sums and differences wrapped (R105). -/

theorem exec_addi_effect (rd rs1 : RegId) (imm : Word) (s : State) :
    ∃ t, exec (.addi rd rs1 imm) s = .next t ∧ WritesRegAndAdvances rd (s.readReg rs1 + imm) s t :=
  ⟨_, rfl, retire_effect s rd _⟩

theorem exec_add_effect (rd rs1 rs2 : RegId) (s : State) :
    ∃ t, exec (.add rd rs1 rs2) s = .next t ∧ WritesRegAndAdvances rd (s.readReg rs1 + s.readReg rs2) s t :=
  ⟨_, rfl, retire_effect s rd _⟩

theorem exec_sub_effect (rd rs1 rs2 : RegId) (s : State) :
    ∃ t, exec (.sub rd rs1 rs2) s = .next t ∧ WritesRegAndAdvances rd (s.readReg rs1 - s.readReg rs2) s t :=
  ⟨_, rfl, retire_effect s rd _⟩

theorem exec_sltu_effect (rd rs1 rs2 : RegId) (s : State) :
    ∃ t, exec (.sltu rd rs1 rs2) s = .next t ∧
      WritesRegAndAdvances rd (if (s.readReg rs1).toNat < (s.readReg rs2).toNat then 1#64 else 0#64) s t :=
  ⟨_, rfl, retire_effect s rd _⟩

/-- The difference as an integer, negative or not, narrows to the wrapped one. -/
theorem ofInt_toNat_sub_toNat (a b : Word) : BitVec.ofInt 64 (a.toNat - b.toNat : Int) = a - b := by
  rw [Int.sub_eq_add_neg, BitVec.ofInt_add, BitVec.ofInt_neg, BitVec.ofInt_natCast, BitVec.ofInt_natCast,
    BitVec.ofNat_toNat, BitVec.ofNat_toNat, BitVec.setWidth_eq, BitVec.setWidth_eq, ← BitVec.sub_eq_add_neg]

/-- Settles O25: the word is addi's row, and the wrapped sum is the exact one narrowed. -/
theorem addiWritesWrappedSum : Obligations.AddiWritesWrappedSum := by
  refine ⟨fun w hrow => decodeWord_of_row (op := .addi) hrow, fun rd rs1 imm s => ?_⟩
  rw [← BitVec.add_def]
  exact exec_addi_effect rd rs1 imm s

/-- Settles O26: the word is add's row, and the wrapped sum is the exact one narrowed. -/
theorem addWritesWrappedSum : Obligations.AddWritesWrappedSum := by
  refine ⟨fun w hrow => decodeWord_of_row (op := .add) hrow, fun rd rs1 rs2 s => ?_⟩
  rw [← BitVec.add_def]
  exact exec_add_effect rd rs1 rs2 s

/-- Settles O27: the word is sub's row, and the wrapped difference is the integer one narrowed. -/
theorem subWritesWrappedDifference : Obligations.SubWritesWrappedDifference := by
  refine ⟨fun w hrow => decodeWord_of_row (op := .sub) hrow, fun rd rs1 rs2 s => ?_⟩
  rw [ofInt_toNat_sub_toNat]
  exact exec_sub_effect rd rs1 rs2 s

/-- Settles O28: the word is sltu's row, and the comparison is the model's own on the unsigned values. -/
theorem sltuComparesUnsigned : Obligations.SltuComparesUnsigned :=
  ⟨fun _ hrow => decodeWord_of_row (op := .sltu) hrow, exec_sltu_effect⟩

/-- Settles O32: Add leaves rb alone, as rb is not rd, so Sub takes off what Add put on; both leave the other
registers alone. -/
theorem subUndoesAdd : Obligations.SubUndoesAdd := by
  intro s rd ra rb hrd hrb
  obtain ⟨t, hadd, hsum, haddFrame, _⟩ := exec_add_effect rd ra rb s
  obtain ⟨u, hsub, hdiff, hsubFrame, _⟩ := exec_sub_effect rd rd rb t
  refine ⟨t, u, hadd, hsub, ?_, fun r hr => (hsubFrame r hr).trans (haddFrame r hr)⟩
  calc u.readReg rd
    _ = t.readReg rd - t.readReg rb := by rw [hdiff, if_neg hrd]
    _ = s.readReg ra + s.readReg rb - s.readReg rb := by rw [hsum, if_neg hrd, haddFrame rb hrb.symm]
    _ = s.readReg ra := BitVec.add_sub_cancel _ _

end Sys2Proof.Machine
end

section
/-! PROOFS. Mul, Divu, Remu (45_multiply_divide.md R115 to R118): Mul retires the exact product narrowed to 64 bits;
Divu and Remu retire the quotient and the remainder behind one test of the divisor; and property E2, that these two
rebuild the dividend. -/

namespace Sys2Proof.Machine

/-! The multiplication, R116. -/

theorem exec_mul_effect (rd rs1 rs2 : RegId) (s : State) :
    ∃ t, exec (.mul rd rs1 rs2) s = .next t ∧ WritesRegAndAdvances rd (s.readReg rs1 * s.readReg rs2) s t :=
  ⟨_, rfl, retire_effect s rd _⟩

theorem ofNat_toNat_mul_toNat (a b : Word) : BitVec.ofNat 64 (a.toNat * b.toNat) = a * b :=
  BitVec.eq_of_toNat_eq (by rw [BitVec.toNat_ofNat, BitVec.toNat_mul])

/-- Settles O29: the word is mul's row, and the wrapped product is the exact one narrowed. -/
theorem mulWritesLowProduct : Obligations.MulWritesLowProduct := by
  refine ⟨fun w hrow => decodeWord_of_row (op := .mul) hrow, fun rd rs1 rs2 s => ?_⟩
  rw [ofNat_toNat_mul_toNat]
  exact exec_mul_effect rd rs1 rs2 s

/-! The divisions, R117 and R118: a zero divisor raises before rd is looked at. -/

theorem exec_divu_effect {s : State} (rd rs1 : RegId) {rs2 : RegId} (hne : s.readReg rs2 ≠ 0#64) :
    ∃ t, exec (.divu rd rs1 rs2) s = .next t ∧ WritesRegAndAdvances rd (s.readReg rs1 / s.readReg rs2) s t :=
  ⟨_, exec_divu_ok hne, retire_effect s rd _⟩

theorem exec_remu_effect {s : State} (rd rs1 : RegId) {rs2 : RegId} (hne : s.readReg rs2 ≠ 0#64) :
    ∃ t, exec (.remu rd rs1 rs2) s = .next t ∧ WritesRegAndAdvances rd (s.readReg rs1 % s.readReg rs2) s t :=
  ⟨_, exec_remu_ok hne, retire_effect s rd _⟩

theorem conclude_checkDivisor_zero (s : State) (f : Unit → State) :
    s.conclude ((s.checkDivisor 0#64).map f) = .next (s.raise { cause := .divideByZero, value := s.pc }) := rfl

theorem exec_divu_zero {s : State} (rd rs1 : RegId) {rs2 : RegId} (hzero : s.readReg rs2 = 0#64) :
    exec (.divu rd rs1 rs2) s = .next (s.raise { cause := .divideByZero, value := s.pc }) := by
  rw [exec, execDivu, hzero, conclude_checkDivisor_zero]

theorem exec_remu_zero {s : State} (rd rs1 : RegId) {rs2 : RegId} (hzero : s.readReg rs2 = 0#64) :
    exec (.remu rd rs1 rs2) s = .next (s.raise { cause := .divideByZero, value := s.pc }) := by
  rw [exec, execRemu, hzero, conclude_checkDivisor_zero]

/-- R115 over the integers: neither the quotient nor its product with the divisor overflows. -/
theorem toNat_udiv_mul_add_umod (a b : Word) : (a / b).toNat * b.toNat + (a % b).toNat = a.toNat := by
  rw [BitVec.toNat_udiv, BitVec.toNat_umod, Nat.div_add_mod']

/-- R118's form of the remainder is R115's, wrapped. -/
theorem sub_udiv_mul_eq_umod (a b : Word) : a - a / b * b = a % b := by
  rw [BitVec.sub_eq_iff_eq_add]
  apply BitVec.eq_of_toNat_eq
  calc a.toNat
    _ = ((a / b).toNat * b.toNat + (a % b).toNat) % 2 ^ 64 := by
      rw [toNat_udiv_mul_add_umod, Nat.mod_eq_of_lt a.isLt]
    _ = (a % b + a / b * b).toNat := by
      rw [BitVec.toNat_add, BitVec.toNat_mul, Nat.add_mod_mod, Nat.add_comm]

/-- Settles O30: the word is divu's row; a zero divisor raises, and else the quotient is retired. -/
theorem divuWritesQuotient : Obligations.DivuWritesQuotient :=
  ⟨fun _ hrow => decodeWord_of_row (op := .divu) hrow, fun rd rs1 _ s =>
    ⟨fun hne => exec_divu_effect rd rs1 hne, fun hzero => ⟨_, exec_divu_zero rd rs1 hzero, raise_effect s _⟩⟩⟩

/-- Settles O31: the word is remu's row; a zero divisor raises, and else the remainder is retired, which is what R118
takes from the dividend. -/
theorem remuWritesRemainder : Obligations.RemuWritesRemainder := by
  refine ⟨fun w hrow => decodeWord_of_row (op := .remu) hrow, fun rd rs1 rs2 s =>
    ⟨fun hne => ?_, fun hzero => ⟨_, exec_remu_zero rd rs1 hzero, raise_effect s _⟩⟩⟩
  rw [sub_udiv_mul_eq_umod]
  exact exec_remu_effect rd rs1 hne

/-- Settles O33: Divu leaves both operands alone, as rq is neither, so Remu divides the same two words; Remu leaves the
quotient alone, as rr is not rq. -/
theorem quotientAndRemainderRebuildDividend : Obligations.QuotientAndRemainderRebuildDividend := by
  intro s rq rr ra rb hrq hrr hqr hqa hqb hb
  obtain ⟨t, hdivu, hquot, hdivuFrame, _⟩ := exec_divu_effect rq ra hb
  have hta : t.readReg ra = s.readReg ra := hdivuFrame ra hqa.symm
  have htb : t.readReg rb = s.readReg rb := hdivuFrame rb hqb.symm
  obtain ⟨u, hremu, hrem, hremuFrame, _⟩ := exec_remu_effect rr ra (htb ▸ hb)
  have hq : u.readReg rq = s.readReg ra / s.readReg rb := by rw [hremuFrame rq hqr, hquot, if_neg hrq]
  have hr : u.readReg rr = s.readReg ra % s.readReg rb := by rw [hrem, if_neg hrr, hta, htb]
  refine ⟨t, u, hdivu, hremu, ?_, ?_⟩
  · rw [hq, hr, toNat_udiv_mul_add_umod]
  · rw [hr]
    exact BitVec.umod_lt _ ((BitVec.pos_iff_ne_zero _).2 hb)

end Sys2Proof.Machine
end

section
/-! PROOFS. The dispatch of Ecall, and every call but Write (46_system_call.md R125 to R127, R129 to R132). A call that
returns a value ends as `retire` of a0 does. -/

namespace Sys2Proof.Machine

section
variable {s : State}

/-! The dispatch, R125: well-formed parameters keep the five call numbers apart. -/

theorem exec_ecall_exit (hexit : s.a7 = s.launch.params.sysExit) :
    exec .ecall s = .next (callExit s).advancePc := if_pos hexit

theorem exec_ecall_write (hp : Params.wf s.launch.params = true) (hwrite : s.a7 = s.launch.params.sysWrite) :
    exec .ecall s = .next (callWrite s) := by
  obtain ⟨-, -, -, hwriteExit, -⟩ := params_apart hp
  rw [exec, execEcall, hwrite, if_neg hwriteExit, if_pos rfl]

theorem exec_ecall_brk (hp : Params.wf s.launch.params = true) (hbrk : s.a7 = s.launch.params.sysBrk) :
    exec .ecall s = .next (callBrk s) := by
  obtain ⟨-, -, -, -, hbrkExit, hbrkWrite, -⟩ := params_apart hp
  rw [exec, execEcall, hbrk, if_neg hbrkExit, if_neg hbrkWrite, if_pos rfl]

theorem stub_ne_implemented (hp : Params.wf s.launch.params = true)
    (hstub : s.a7 = s.launch.params.sysRead ∨ s.a7 = s.launch.params.sysOpenat) :
    s.a7 ≠ s.launch.params.sysExit ∧ s.a7 ≠ s.launch.params.sysWrite ∧ s.a7 ≠ s.launch.params.sysBrk := by
  obtain ⟨-, -, -, -, -, -, hreadExit, hreadWrite, hreadBrk, hopenExit, hopenWrite, hopenBrk⟩ := params_apart hp
  rcases hstub with hread | hopenat
  · rw [hread]; exact ⟨hreadExit, hreadWrite, hreadBrk⟩
  · rw [hopenat]; exact ⟨hopenExit, hopenWrite, hopenBrk⟩

theorem exec_ecall_stub (hp : Params.wf s.launch.params = true)
    (hstub : s.a7 = s.launch.params.sysRead ∨ s.a7 = s.launch.params.sysOpenat) :
    exec .ecall s = .next (s.raise { cause := .unsupportedSyscall, value := s.a7 }) := by
  obtain ⟨hexit, hwrite, hbrk⟩ := stub_ne_implemented hp hstub
  rw [exec, execEcall, if_neg hexit, if_neg hwrite, if_neg hbrk]
  rcases hstub with hread | hopenat
  · rw [if_pos hread]
  · rw [if_pos hopenat, ite_self]

/-! The two ends of Brk, R129. -/

theorem callBrk_of_aligned (h8 : s.a0.toNat % 8 = 0) :
    callBrk s = ({ s with programBreak := breakAfter s s.a0 } : State).retire s.launch.params.regA0
      (breakAfter s s.a0) := if_neg (not_not.2 h8)

theorem callBrk_of_misaligned (h8 : s.a0.toNat % 8 ≠ 0) :
    callBrk s = s.raise { cause := .misalignedBreak, value := s.a0 } := if_pos h8

end

/-- No call writes a register but a0 (R126). -/
theorem not_mem_destRegs_ecall {s : State} {r : RegId} (hr : r ≠ s.launch.params.regA0) :
    r ∉ destRegs .ecall s := by
  have hcall : destRegs .ecall s = [] ∨ destRegs .ecall s = [s.launch.params.regA0] := by
    simp only [destRegs]
    split_ifs
    · exact .inl rfl
    · exact .inr rfl
    · exact .inr rfl
    · exact .inl rfl
  rcases hcall with hnone | ha0
  · rw [hnone]; exact List.not_mem_nil
  · rw [ha0]; exact mt List.mem_singleton.1 hr

theorem destRegs_ecall_exit {s : State} (hexit : s.a7 = s.launch.params.sysExit) : destRegs .ecall s = [] := by
  simp only [destRegs, if_pos hexit]

/-- Settles O34: Exit latches a0 and the status, and the advance after it moves the pc alone. -/
theorem exitHaltsWithA0 : Obligations.ExitHaltsWithA0 :=
  fun s hexit => ⟨(callExit s).advancePc, exec_ecall_exit hexit, rfl, rfl, rfl, fun _ => rfl, fun _ => rfl, rfl, rfl,
    rfl, rfl⟩

/-- Settles O37: an aligned request retires the new break into a0, from the state that holds it already; a misaligned
one raises. -/
theorem brkMovesBreakWithinBounds : Obligations.BrkMovesBreakWithinBounds := by
  intro s hp hbrk
  have hexec := exec_ecall_brk hp hbrk
  refine ⟨fun h8 => ?aligned, fun h8 => ?misaligned⟩
  case aligned =>
    rw [callBrk_of_aligned h8] at hexec
    obtain ⟨ha0, hregs, hpc, hmem, hlaunch, hbreak, hstatus, hexit, hcause, hstdout⟩ :=
      retire_effect { s with programBreak := breakAfter s s.a0 } s.launch.params.regA0 (breakAfter s s.a0)
    rw [if_neg (regA0_ne_zero hp)] at ha0
    refine ⟨_, hexec, fun hin => ?inside, fun hout => ?outside, ?returned, hregs, hpc, hmem, hlaunch, hstatus, hexit,
      hcause, hstdout⟩
    case inside => exact hbreak.trans (if_pos hin)
    case outside => exact hbreak.trans (if_neg hout)
    case returned => rw [State.a0, hlaunch, ha0, hbreak]
  case misaligned =>
    rw [callBrk_of_misaligned h8] at hexec
    exact ⟨_, hexec, raise_effect s _⟩

/-- Settles O38: neither number is an implemented call's, and both stubs raise the same cause. -/
theorem readAndOpenatAreUnsupported : Obligations.ReadAndOpenatAreUnsupported :=
  fun s hp hstub => ⟨_, exec_ecall_stub hp hstub, raise_effect s _⟩

/-- Settles O39: the dispatch passes over all five numbers. -/
theorem otherCallNumbersAreUnknown : Obligations.OtherCallNumbersAreUnknown := by
  intro s hexit hwrite hbrk hread hopenat
  refine ⟨s.raise { cause := .unknownSyscall, value := s.a7 }, ?_, raise_effect s _⟩
  rw [exec, execEcall, if_neg hexit, if_neg hwrite, if_neg hbrk, if_neg hread, if_neg hopenat]

/-- Settles O40: Ecall's effect, field by field. -/
theorem callsKeepTheRest : Obligations.CallsKeepTheRest := by
  intro s t hexec hf
  have heff := exec_effect hexec
  refine ⟨fun r hr => heff.readReg_eq hf (not_mem_destRegs_ecall hr), fun a => ?memory, fun hexit r => ?exit,
    fun hbrk => ?programBreak, fun hwrite => ?output⟩
  case memory =>
    rcases heff.mem_cases with hmem | ⟨_, _, _, hsd, _⟩
    · rw [hmem]
    · nomatch hsd
  case exit => exact heff.readReg_eq hf (by rw [destRegs_ecall_exit hexit]; exact List.not_mem_nil)
  case programBreak => exact heff.programBreak_cases.resolve_right fun ⟨_, h, _⟩ => hbrk h
  case output => exact heff.stdout_cases.resolve_right fun ⟨_, h, _⟩ => hwrite h

end Sys2Proof.Machine
end

section
/-! PROOFS. Write (46_system_call.md R128): its three ends, and that the bytes of the chunks it reads are the buffer's,
so that what it emits, on completing or before a raise, is where the buffer begins. -/

namespace Sys2Proof.Machine

section
variable {s : State}

/-! The ends of Write: the descriptor first, then the chunk reads. -/

theorem callWrite_of_otherFd (hfd : s.a0 ≠ 1#64) :
    callWrite s = s.raise { cause := .unsupportedFd, value := s.a0 } := if_pos hfd

theorem callWrite_of_read {bs : List Byte} (hfd : s.a0 = 1#64)
    (hread : readChunks s (chunkCount s.a2) s.a1 = (bs, none)) :
    callWrite s = (s.emit (bs.take s.a2.toNat)).retire s.launch.params.regA0 s.a2 := by
  rw [callWrite, if_neg fun hne => hne hfd, hread]; rfl

theorem callWrite_of_readRaise {bs : List Byte} {f : FatalCondition} (hfd : s.a0 = 1#64)
    (hread : readChunks s (chunkCount s.a2) s.a1 = (bs, some f)) :
    callWrite s = (s.emit (emittedBeforeRaise s bs)).raise f := by
  rw [callWrite, if_neg fun hne => hne hfd, hread]

/-! The chunks. -/

/-- A chunk is needed when it begins below the length. -/
theorem lt_chunkCount_iff (len : Word) (i : Nat) : i < chunkCount len ↔ 8 * i < len.toNat := by
  rw [chunkCount]; omega

theorem toNat_le_chunkCount (len : Word) : len.toNat ≤ 8 * chunkCount len := by
  rw [chunkCount]; omega

theorem memRead_of_not_chunkReadable {n : Nat} (h : ¬ ChunkReadable s n) :
    s.memRead (chunkAddr s n) = .error
      (if (chunkAddr s n).toNat % 8 ≠ 0 then { cause := .misalignedData, value := chunkAddr s n }
        else { cause := .memOutOfRange, value := chunkAddr s n }) := by
  rw [memRead_error_iff]
  by_cases h8 : (chunkAddr s n).toNat % 8 = 0
  · exact .inr ⟨h8, Nat.le_of_not_lt fun hm => h ⟨h8, hm⟩, if_neg (not_not.2 h8)⟩
  · exact .inl ⟨h8, if_pos h8⟩

theorem length_readChunks {n : Nat} (h : ∀ i < n, ChunkReadable s i) : (readChunks s n s.a1).1.length = 8 * n := by
  obtain ⟨-, hlen, -⟩ := readChunks_all s n s.a1 h
  exact hlen

/-- The first m bytes read are the buffer's, as far as the chunks read go. -/
theorem take_readChunks {n m : Nat} (h : ∀ i < n, ChunkReadable s i) (hm : m ≤ 8 * n) :
    ((readChunks s n s.a1).1.take m).length = m ∧
    ∀ k < m, ((readChunks s n s.a1).1.take m)[k]? = some (bufferByte s k) := by
  obtain ⟨-, hlen, hbytes⟩ := readChunks_all s n s.a1 h
  refine ⟨List.length_take_of_le (hlen ▸ hm), fun k hk => ?_⟩
  rw [List.getElem?_take_of_lt hk]
  exact hbytes k (hk.trans_le hm)

/-- The free number of chunks emitted before a raise is at most that of the chunks read (U4). -/
theorem emittedBeforeRaise_eq_take {n : Nat} {bs : List Byte} (hlen : bs.length = 8 * n) :
    ∃ m ≤ n, emittedBeforeRaise s bs = bs.take (8 * m) := by
  refine ⟨Config.freeChunks s.draws % (n + 1), Nat.le_of_lt_succ (Nat.mod_lt _ n.succ_pos), ?_⟩
  rw [emittedBeforeRaise, hlen, Nat.mul_div_cancel_left n (by decide)]

end

/-- Settles O35: every chunk reads, so Write emits the buffer's first len bytes and retires len into a0. -/
theorem writeAppendsTheBuffer : Obligations.WriteAppendsTheBuffer := by
  intro s hp hwrite hfd hreadable
  have hchunks : ∀ i < chunkCount s.a2, ChunkReadable s i :=
    fun i hi => hreadable i ((lt_chunkCount_iff s.a2 i).1 hi)
  have hexec := exec_ecall_write hp hwrite
  rw [callWrite_of_read hfd (Prod.ext rfl (readChunks_all s _ s.a1 hchunks).1)] at hexec
  obtain ⟨hlen, hbytes⟩ := take_readChunks hchunks (toNat_le_chunkCount s.a2)
  obtain ⟨ha0, hregs, hpc, hmem, hlaunch, hbreak, hstatus, hexit, hcause, hstdout⟩ :=
    retire_effect (s.emit ((readChunks s (chunkCount s.a2) s.a1).1.take s.a2.toNat)) s.launch.params.regA0 s.a2
  rw [if_neg (regA0_ne_zero hp)] at ha0
  refine ⟨_, hexec, ⟨_, hstdout, hlen, hbytes⟩, ?_, hregs, hpc, hmem, hlaunch, hbreak, hstatus, hexit, hcause⟩
  rw [State.a0, hlaunch]
  exact ha0

/-- Settles O36: another descriptor raises before any read; else the reads end at the first chunk that cannot be read,
and what is emitted is taken from the chunks before it. -/
theorem writeRaisesInOrder : Obligations.WriteRaisesInOrder := by
  intro s hp hwrite
  have hexec := exec_ecall_write hp hwrite
  refine ⟨fun hfd => ?descriptor, fun n hfd hn hbefore hnot => ?chunk⟩
  case descriptor =>
    rw [callWrite_of_otherFd hfd] at hexec
    exact ⟨_, hexec, raise_effect s _⟩
  case chunk =>
    obtain ⟨hraise, hread⟩ := readChunks_raise s (chunkCount s.a2) n s.a1 ((lt_chunkCount_iff s.a2 n).2 hn) hbefore
      (memRead_of_not_chunkReadable hnot)
    obtain ⟨m, hm, hemitted⟩ := emittedBeforeRaise_eq_take (s := s) (length_readChunks hbefore)
    rw [callWrite_of_readRaise hfd (Prod.ext hread hraise), hemitted] at hexec
    obtain ⟨hraises, hstdout⟩ := raise_effect (s.emit ((readChunks s n s.a1).1.take (8 * m))) _
    exact ⟨_, hexec, hraises, m, hm, _, hstdout, take_readChunks hbefore (Nat.mul_le_mul_left 8 hm)⟩

end Sys2Proof.Machine
end

section
/-! PROOFS. Fatal conditions (60_exceptions.md R145 to R147, R156, R157): a fetch that raises makes the step the entry,
no step follows the entry, and the ten causes have ten codes. -/

namespace Sys2Proof.Machine

/-- Settles O9: each test of Fetch that fails is the fatal condition the step takes. -/
theorem stepTakesTheFetchFault : Obligations.StepTakesTheFetchFault := by
  intro s hrun
  refine ⟨fun h4 => ?misaligned, fun h4 hlen => ?outOfRange⟩
  case misaligned => exact ⟨_, step_of_fetch_error hrun (fetch_of_misaligned h4), raise_effect s _⟩
  case outOfRange => exact ⟨_, step_of_fetch_error hrun (fetch_of_length_le_index h4 hlen), raise_effect s _⟩

theorem step_of_faulted {s : State} (h : s.status = .faulted) : step s = .fault .coreFaulted := by
  simp [step, h]

/-- Settles O41. -/
theorem raiseFaultsForGood : Obligations.RaiseFaultsForGood :=
  fun s f => ⟨raise_effect s f, step_of_faulted (raise_status s f)⟩

/-- The causes in the order of the table of R145. -/
def FatalCause.all : List FatalCause :=
  [.misalignedPC, .fetchOutOfRange, .illegalInstruction, .misalignedData, .memOutOfRange, .divideByZero,
    .unsupportedSyscall, .unknownSyscall, .unsupportedFd, .misalignedBreak]

theorem FatalCause.mem_all (c : FatalCause) : c ∈ FatalCause.all := by cases c <;> decide

theorem FatalCause.map_code_all : FatalCause.all.map FatalCause.code = [1, 2, 3, 4, 5, 6, 7, 8, 9, 10] := rfl

/-- Settles O42: the table lists every cause, and no number stands twice in its column of codes. -/
theorem fatalCodesAreOneToTen : Obligations.FatalCodesAreOneToTen := by
  have hnodup : (FatalCause.all.map FatalCause.code).Nodup := by rw [FatalCause.map_code_all]; decide
  exact ⟨FatalCause.map_code_all, fun c d => List.inj_on_of_nodup_map hnodup c.mem_all d.mem_all⟩

end Sys2Proof.Machine
end

section
/-! PROOFS. The counter the free values are drawn by (60_exceptions.md R156; 93_implementation_defined.md U3, U4): an
instruction that completes never reads it, and one that raises puts what it draws only where nothing is specified. -/

namespace Sys2Proof.Machine

/-- The state with another counter. -/
def State.setDraws (n : Nat) (s : State) : State := { s with draws := n }

/-- Two outcomes that differ in the counter n alone where the instruction completed, and that agree on the fatal
condition where it did not. -/
def AgreeButForDraws (n : Nat) (o p : Host.Outcome State Fault Refusal) : Prop :=
  ∃ t u, o = .next t ∧ p = .next u ∧ u.status = t.status ∧ u.faultCause = t.faultCause ∧ u.exitCode = t.exitCode ∧
    u.launch = t.launch ∧ (t.status ≠ .faulted → u = t.setDraws n)

theorem agree_next {n : Nat} {t u : State} (h : u = t.setDraws n) : AgreeButForDraws n (.next t) (.next u) := by
  subst h; exact ⟨t, _, rfl, rfl, rfl, rfl, rfl, rfl, fun _ => rfl⟩

theorem agree_raise (n : Nat) (f : FatalCondition) {s u : State} (hexit : u.exitCode = s.exitCode)
    (hlaunch : u.launch = s.launch) : AgreeButForDraws n (.next (s.raise f)) (.next (u.raise f)) :=
  ⟨_, _, rfl, rfl, rfl, rfl, hexit, hlaunch, fun hf => absurd (raise_status s f) hf⟩

/-! The two ends of a linking jump. -/

theorem linkAndJump_of_aligned (rd : RegId) (s : State) {target : Word} (h4 : target.toNat % 4 = 0) :
    linkAndJump rd target s = { s.writeReg rd s.link with pc := target } := by
  rcases linkAndJump_cases rd target s with ⟨_, e⟩ | ⟨hne, _⟩
  · exact e
  · exact absurd h4 hne

theorem linkAndJump_of_misaligned (rd : RegId) (s : State) {target : Word} (hne : target.toNat % 4 ≠ 0) :
    linkAndJump rd target s =
      (s.writeReg rd (Config.freeLink s.draws)).raise { cause := .misalignedPC, value := target } := by
  rcases linkAndJump_cases rd target s with ⟨h4, _⟩ | ⟨_, e⟩
  · exact absurd h4 hne
  · exact e

section
variable (n : Nat) (s : State)

/-! What writes the state keeps the counter apart; what only reads it is the same by definition. -/

theorem setDraws_writeReg (r : RegId) (v : Word) : (s.setDraws n).writeReg r v = (s.writeReg r v).setDraws n := by
  unfold State.writeReg; split <;> rfl

theorem setDraws_retire (rd : RegId) (v : Word) : (s.setDraws n).retire rd v = (s.retire rd v).setDraws n := by
  rw [State.retire, setDraws_writeReg]; rfl

theorem setDraws_memWrite (a v : Word) : (s.setDraws n).memWrite a v = (s.memWrite a v).map (State.setDraws n) := by
  have hcheck : (s.setDraws n).checkData a = s.checkData a := rfl
  rw [State.memWrite, State.memWrite, hcheck]
  cases s.checkData a <;> rfl

theorem setDraws_readChunks (m : Nat) (a : Word) : readChunks (s.setDraws n) m a = readChunks s m a :=
  readChunks_congr (s := s) (t := s.setDraws n) rfl rfl m a

/-! The ends of the rules. -/

theorem agree_retire (rd : RegId) (v : Word) :
    AgreeButForDraws n (.next (s.retire rd v)) (.next ((s.setDraws n).retire rd v)) :=
  agree_next (setDraws_retire n s rd v)

/-- A rule that tests, then completes, meets the same condition or completes alike. -/
theorem agree_conclude {α : Type} (x : Except FatalCondition α) {f g : α → State}
    (h : ∀ a, g a = (f a).setDraws n) :
    AgreeButForDraws n (s.conclude (x.map f)) ((s.setDraws n).conclude (x.map g)) := by
  cases x with
  | error c => exact agree_raise n c rfl rfl
  | ok a => exact agree_next (h a)

theorem agree_linkAndJump (rd : RegId) (target : Word) :
    AgreeButForDraws n (.next (linkAndJump rd target s)) (.next (linkAndJump rd target (s.setDraws n))) := by
  by_cases h4 : target.toNat % 4 = 0
  · rw [linkAndJump_of_aligned rd s h4, linkAndJump_of_aligned rd (s.setDraws n) h4, setDraws_writeReg]
    exact agree_next rfl
  · rw [linkAndJump_of_misaligned rd s h4, linkAndJump_of_misaligned rd (s.setDraws n) h4]
    exact agree_raise n _ (by simp [State.setDraws]) (by simp [State.setDraws])

theorem agree_jumpPc (p : Word) :
    AgreeButForDraws n (s.conclude (s.jumpPc p)) ((s.setDraws n).conclude ((s.setDraws n).jumpPc p)) := by
  obtain ⟨haligned, hmisaligned⟩ := jumpPcNeedsAlignedTarget s p
  obtain ⟨haligned', hmisaligned'⟩ := jumpPcNeedsAlignedTarget (s.setDraws n) p
  by_cases h4 : p.toNat % 4 = 0
  · rw [haligned h4, haligned' h4]; exact agree_next rfl
  · rw [hmisaligned h4, hmisaligned' h4]; exact agree_raise n _ rfl rfl

theorem agree_execSd (a b : RegId) (imm : Word) :
    AgreeButForDraws n (execSd a b imm s) (execSd a b imm (s.setDraws n)) := by
  have hwrite : (s.setDraws n).memWrite ((s.setDraws n).baseDisp a imm) ((s.setDraws n).readReg b) =
    (s.memWrite (s.baseDisp a imm) (s.readReg b)).map (State.setDraws n) := setDraws_memWrite n s _ _
  rw [execSd, execSd, hwrite]
  cases s.memWrite (s.baseDisp a imm) (s.readReg b) with
  | error c => exact agree_raise n c rfl rfl
  | ok t => exact agree_next rfl

/-- The chunks a raising Write emitted are counted by a draw, but the output of a Faulted state is not relied on. -/
theorem agree_callWrite : AgreeButForDraws n (.next (callWrite s)) (.next (callWrite (s.setDraws n))) := by
  by_cases hfd : s.a0 = 1#64
  · cases hread : readChunks s (chunkCount s.a2) s.a1 with
    | mk bs cond =>
      have hread' : readChunks (s.setDraws n) (chunkCount s.a2) s.a1 = (bs, cond) :=
        (setDraws_readChunks n s _ _).trans hread
      cases cond with
      | none =>
        rw [callWrite_of_read hfd hread, callWrite_of_read (s := s.setDraws n) hfd hread']
        exact agree_retire n (s.emit _) _ _
      | some f =>
        rw [callWrite_of_readRaise hfd hread, callWrite_of_readRaise (s := s.setDraws n) hfd hread']
        exact agree_raise n f rfl rfl
  · rw [callWrite_of_otherFd hfd, callWrite_of_otherFd (s := s.setDraws n) hfd]
    exact agree_raise n _ rfl rfl

theorem agree_callBrk : AgreeButForDraws n (.next (callBrk s)) (.next (callBrk (s.setDraws n))) := by
  by_cases h8 : s.a0.toNat % 8 = 0
  · rw [callBrk_of_aligned h8, callBrk_of_aligned (s := s.setDraws n) h8]
    exact agree_retire n { s with programBreak := breakAfter s s.a0 } _ _
  · rw [callBrk_of_misaligned h8, callBrk_of_misaligned (s := s.setDraws n) h8]
    exact agree_raise n _ rfl rfl

/-- The dispatch reads the call number and the launch, not the counter. -/
theorem agree_execEcall : AgreeButForDraws n (execEcall s) (execEcall (s.setDraws n)) := by
  have hnumber : (s.setDraws n).a7 = s.a7 := rfl
  have hlaunch : (s.setDraws n).launch = s.launch := rfl
  unfold execEcall
  rw [hnumber, hlaunch]
  split_ifs
  · exact agree_next rfl
  · exact agree_callWrite n s
  · exact agree_callBrk n s
  all_goals exact agree_raise n _ rfl rfl

end

theorem exec_agree (i : Instr) (s : State) (n : Nat) : AgreeButForDraws n (exec i s) (exec i (s.setDraws n)) := by
  cases i with
  | lui rd | addi rd | add rd | sub rd | sltu rd | mul rd => exact agree_retire n s rd _
  | jal rd | jalr rd => exact agree_linkAndJump n s rd _
  | ld rd | divu rd | remu rd => exact agree_conclude n s _ fun _ => setDraws_retire n s rd _
  | sd a b imm => exact agree_execSd n s a b imm
  | beq a b imm =>
    by_cases heq : s.readReg a = s.readReg b
    · rw [exec_beq_of_eq imm heq, exec_beq_of_eq (s := s.setDraws n) imm heq]; exact agree_jumpPc n s _
    · rw [exec_beq_of_ne imm heq, exec_beq_of_ne (s := s.setDraws n) imm heq]; exact agree_next rfl
  | ecall => exact agree_execEcall n s

/-- Settles O51. -/
theorem freeValuesReachNothingElse : Obligations.FreeValuesReachNothingElse := exec_agree

end Sys2Proof.Machine
end

section
/-! PROOFS. Which launches boot (70_reset_and_hazards.md R183; 00_scope.md R6): the checks of Launch.wf are the premises,
one by one, and boot refuses for nothing else. -/

namespace Sys2Proof.Machine

theorem params_wf_iff (p : Params) :
    Params.wf p = true ↔ [p.regSp, p.regA0, p.regA1, p.regA2, p.regCallNo].Nodup ∧
      (0 : RegId) ∉ [p.regSp, p.regA0, p.regA1, p.regA2, p.regCallNo] ∧
      [p.sysExit, p.sysRead, p.sysWrite, p.sysOpenat, p.sysBrk].Nodup := by
  rw [Params.wf, Bool.and_eq_true, decide_eq_true_eq, decide_eq_true_eq, List.nodup_cons,
    and_comm (a := (0 : RegId) ∉ _), and_assoc]

/-- Premise (f) as a difference, once (e) says that it does not go below zero. -/
theorem launch_wf_iff (l : Launch) :
    Launch.wf l = true ↔ Params.wf l.params = true ∧ l.memBytes % 8 = 0 ∧ l.memBytes < 2 ^ 64 ∧
      l.codeBase.toNat % 4 = 0 ∧ l.codeBase.toNat + 4 * l.code.length ≤ 2 ^ 64 ∧
      l.dataBase.toNat % 8 = 0 ∧ l.dataEnd ≤ l.memBytes ∧ 8 * Launch.stackWords l ≤ l.memBytes ∧
      Launch.initialBreak l ≤ l.memBytes - 8 * Launch.stackWords l := by
  simp only [Launch.wf, Bool.and_eq_true, decide_eq_true_eq, and_assoc, and_congr_right_iff]
  intros
  omega

theorem boot_of_wf {l : Launch} (h : Launch.wf l = true) :
    boot l = (State.created l).conclude (resetSequence l) := if_pos h

theorem boot_eq_refused_iff (l : Launch) : boot l = .refused .illFormedLaunch ↔ ¬ Launch.wf l = true := by
  constructor
  · intro hrefused hwf
    obtain ⟨t, ht⟩ := exists_conclude_eq_next (State.created l) (resetSequence l)
    rw [boot_of_wf hwf, ht] at hrefused
    nomatch hrefused
  · exact fun hwf => if_neg hwf

/-- Settles O59. -/
theorem illFormedLaunchIsRefused : Obligations.IllFormedLaunchIsRefused := by
  intro l
  rw [boot_eq_refused_iff, launch_wf_iff, params_wf_iff, and_assoc, and_assoc]
  rfl

end Sys2Proof.Machine
end

section
/-! PROOFS. The state a well-formed launch boots to (70_reset_and_hazards.md R170 to R184): the stack as reset lays it,
then the whole reset sequence, then the statements read off. -/

namespace Sys2Proof.Machine

/-! The stack. -/

/-- The words the reset sequence pushes after the strings, in address order (R178 to R181, R184). -/
def Launch.vector (l : Launch) : List Word :=
  BitVec.ofNat 64 l.argv.length ::
    ((List.range l.argv.length).map (fun i => BitVec.ofNat 64 (argPointer l i)) ++ [0, 0])

theorem length_vector (l : Launch) : (Launch.vector l).length = l.argv.length + 3 := by simp [Launch.vector]

/-- Words pushed from the last to the first lie at rising addresses from the new sp. -/
theorem pushWords_reverse_spec (vs : List Word) {s : State} {p n : Nat} (h : StackRoom s p (vs.length + n)) :
    ∃ t, pushWords vs.reverse s = .ok t ∧ StackRoom t (p - 8 * vs.length) n ∧ OnlySpAndMem s t ∧
      SameOutside (p - 8 * vs.length) p s t ∧
      ∀ i w, vs[i]? = some w → t.mem.readWord (p - 8 * vs.length + 8 * i) = w := by
  have hroom := h.room
  rw [← vs.length_reverse] at h
  obtain ⟨t, hpush, ht, hst, hsame, hwords⟩ := pushWords_spec vs.reverse h
  rw [vs.length_reverse] at ht hsame
  refine ⟨t, hpush, ht, hst, hsame, fun i w hi => ?_⟩
  have hlt : i < vs.length := (List.getElem?_eq_some_iff.1 hi).1
  have haddr : p - 8 * vs.length + 8 * i = p - 8 * (vs.length - 1 - i + 1) := by omega
  rw [haddr]
  refine hwords _ w ?_
  rw [List.getElem?_reverse (by omega), ← hi]
  congr 1; omega

/-- The words and bytes from the initial sp up (R177 to R181, R184). -/
structure StackLaid (l : Launch) (m : Memory) : Prop where
  vector : ∀ i w, (Launch.vector l)[i]? = some w → m.readWord (initialSp l + 8 * i) = w
  string : ∀ (i : Nat) (arg : List Byte), l.argv[i]? = some arg → ∀ k < 8 * stringWords arg,
    m.readByte (argPointer l i + k) = arg.getD k 0

theorem initialSp_eq (l : Launch) :
    initialSp l = l.memBytes - 8 * (l.argv.map stringWords).sum - 8 * (Launch.vector l).length := by
  rw [initialSp, Launch.stackWords, length_vector]; omega

/-- The first string lies lowest, as it is pushed last (R177). -/
theorem argPointer_zero_le (l : Launch) (i : Nat) : argPointer l 0 ≤ argPointer l i := by
  have hsum : ((l.argv.drop i).map stringWords).sum ≤ (l.argv.map stringWords).sum :=
    ((List.drop_sublist i l.argv).map stringWords).sum_le_sum (by simp)
  rw [argPointer, argPointer, List.drop_zero]; omega

/-- The stack has room for what is pushed, so it is laid out from the initial sp and nothing below changes. -/
theorem layStack_spec {s : State} (h : StackRoom s s.launch.memBytes (Launch.stackWords s.launch)) :
    ∃ u, layStack s = .ok u ∧ u.sp.toNat = initialSp s.launch ∧ OnlySpAndMem s u ∧
      SameOutside (initialSp s.launch) s.launch.memBytes s u ∧ StackLaid s.launch u.mem := by
  obtain ⟨ptrs, t, hstrings, ht, hst, hsame, hptrs, hbytes⟩ :=
    pushStrings_spec s.launch.argv (n := (Launch.vector s.launch).length)
      (by rwa [length_vector, ← add_assoc])
  have hvector : [0#64, 0#64] ++ ptrs.reverse ++ [BitVec.ofNat 64 s.launch.argv.length] =
      (Launch.vector s.launch).reverse := by
    rw [hptrs]; simp [Launch.vector, argPointer]
  obtain ⟨u, hpush, hu, htu, hsame', hwords⟩ := pushWords_reverse_spec (Launch.vector s.launch) (n := 0) ht
  rw [← initialSp_eq] at hu hsame' hwords
  refine ⟨u, by simp [layStack, hstrings, ← hpush, ← hvector], hu.sp, hst.trans htu, fun a ha => ?same,
    hwords, fun i arg hi k hk => ?string⟩
  case same =>
    have := initialSp_eq s.launch
    rw [hsame' a (by omega), hsame a (by omega)]
  case string =>
    rw [hsame' _ (.inr ((argPointer_zero_le s.launch i).trans (Nat.le_add_right _ k)))]
    exact hbytes i arg hi k hk

/-! The whole reset sequence. -/

/-- The state at the first fetch (R182). -/
structure Booted (l : Launch) (s : State) : Prop where
  launch : s.launch = l
  pc : s.pc = l.codeBase
  programBreak : s.programBreak.toNat = Launch.initialBreak l
  status : s.status = .running
  stdout : s.stdout = []
  sp : s.sp.toNat = initialSp l
  otherRegs : ∀ r, r ≠ l.params.regSp → s.readReg r = 0
  slotZero : s.regs[0] = 0#64
  memCanonical : s.mem.wf = true
  memInside : ∀ c ∈ s.mem, c.1 < l.memBytes
  data : ∀ (k : Nat) (d : Word), l.data[k]? = some d → s.mem.readWord (l.dataBase.toNat + 8 * k) = d
  stack : StackLaid l s.mem
  zeroFill : ∀ a, (a < l.dataBase.toNat ∨ l.dataEnd ≤ a) → a < initialSp l → s.mem.readByte a = 0

theorem initialBreak_le_initialSp {l : Launch} (h : LaunchFacts l) : Launch.initialBreak l ≤ initialSp l := by
  have := h.stackFits
  rw [initialSp]; omega

theorem dataEnd_le_initialSp {l : Launch} (h : LaunchFacts l) : l.dataEnd ≤ initialSp l :=
  (dataEnd_le_initialBreak l).1.trans (initialBreak_le_initialSp h)

/-- A number of bytes up to MEM_BYTES is a 64-bit word. -/
theorem toNat_ofNat_of_le_memBytes {l : Launch} (h : LaunchFacts l) {n : Nat} (hn : n ≤ l.memBytes) :
    (BitVec.ofNat 64 n).toNat = n :=
  (BitVec.toNat_ofNat n 64).trans (Nat.mod_eq_of_lt (hn.trans_lt h.memBytes))

/-- Before the stack is laid out sp is at MEM_BYTES (R172). -/
theorem stackRoom_at_memBytes {l : Launch} (h : LaunchFacts l) {s : State} (hlaunch : s.launch = l)
    (hsp : s.sp = BitVec.ofNat 64 l.memBytes) : StackRoom s s.launch.memBytes (Launch.stackWords s.launch) := by
  subst hlaunch
  have := h.stackFits
  exact ⟨by rw [hsp, toNat_ofNat_of_le_memBytes h le_rfl], regSp_ne_zero h.params, h.memAligned, by omega, le_rfl,
    h.memAligned⟩

/-- The control state stands before the data segment is copied, the data segment before the stack is laid out above it. -/
theorem exists_resetSequence_booted {l : Launch} (h : LaunchFacts l) :
    ∃ s, resetSequence l = .ok s ∧ Booted l s := by
  obtain ⟨s, hinit, hlaunch, hpc, hbreak, hstatus, hout, hsp, hmem, hslot, hregs⟩ := initControl_spec h
  obtain ⟨t, hcopy, hst, htregs, hsame, hdata⟩ := copyData_spec l.data (s := s) h.dataAligned
    (by rw [hlaunch]; exact h.dataEnd) (by rw [hlaunch]; exact h.memBytes)
  have htlaunch : t.launch = l := hst.launch.trans hlaunch
  have htsp : t.sp = BitVec.ofNat 64 l.memBytes := by
    rw [← hsp, State.sp, State.sp, hst.launch, readReg_congr htregs]
  obtain ⟨u, hlay, husp, htu, hsame', hstack⟩ := layStack_spec (stackRoom_at_memBytes h htlaunch htsp)
  rw [htlaunch] at husp hsame' hstack
  have hsu : OnlySpAndMem s u := hst.trans htu
  refine ⟨{ u with status := .running }, by simp [resetSequence, hinit, hcopy, hlay], ?_⟩
  exact
    { launch := hsu.launch.trans hlaunch
      pc := hsu.pc.trans hpc
      programBreak := by
        have := h.stackFits
        exact (congrArg BitVec.toNat (hsu.programBreak.trans hbreak)).trans
          (toNat_ofNat_of_le_memBytes h (by omega))
      status := rfl
      stdout := hsu.stdout.trans hout
      sp := husp
      otherRegs := fun r hr => (hsu.regs r (by rwa [hlaunch])).trans (hregs r hr)
      slotZero := hsu.slotZero.trans hslot
      memCanonical := hsu.memWf (by rw [hmem]; rfl)
      memInside := hlaunch ▸ hsu.memInside (by simp [hmem])
      data := fun k d hk => by
        have hlt : k < l.data.length := (List.getElem?_eq_some_iff.1 hk).1
        have hend := dataEnd_le_initialSp h
        rw [← hdata k d hk]
        exact readWord_congr fun j hj => hsame' _ (by rw [Launch.dataEnd] at hend; omega)
      stack := hstack
      zeroFill := fun a hdataOut ha =>
        calc u.mem.readByte a
          _ = t.mem.readByte a := hsame' a (.inl ha)
          _ = s.mem.readByte a := hsame a hdataOut
          _ = 0 := by rw [hmem]; rfl }

theorem exists_boot_booted {l : Launch} (hwf : Launch.wf l = true) : ∃ s, boot l = .next s ∧ Booted l s := by
  obtain ⟨s, hreset, hs⟩ := exists_resetSequence_booted (launchFacts hwf)
  exact ⟨s, by rw [boot_of_wf hwf, hreset, conclude_ok], hs⟩

theorem booted_of_boot {l : Launch} {s : State} (hwf : Launch.wf l = true) (hboot : boot l = .next s) :
    Booted l s := by
  obtain ⟨t, ht, hbooted⟩ := exists_boot_booted hwf
  obtain rfl := Host.Outcome.next.inj (hboot.symm.trans ht)
  exact hbooted

theorem Booted.inv {l : Launch} {s : State} (h : Booted l s) (hwf : Launch.wf l = true) : s.Inv where
  launch := by rw [h.launch]; exact hwf
  memCanonical := h.memCanonical
  memInside := by rw [h.launch]; exact h.memInside
  zeroSlot := h.slotZero
  pcAligned _ := by rw [h.pc]; exact (launchFacts hwf).codeAligned
  breakOk _ := by rw [h.launch, h.programBreak]; exact dataEnd_le_initialBreak l

/-! The statements. -/

/-- Settles O56. -/
theorem wellFormedLaunchBoots : Obligations.WellFormedLaunchBoots := by
  intro l hwf
  obtain ⟨s, hboot, hs⟩ := exists_boot_booted hwf
  refine ⟨s, hboot, hs.inv hwf, hs.status, hs.launch, ?_⟩
  rw [hs.programBreak, hs.sp]
  exact initialBreak_le_initialSp (launchFacts hwf)

/-- Settles O57. -/
theorem bootSetsControlState : Obligations.BootSetsControlState := by
  intro l s hwf hboot
  have hs := booted_of_boot hwf hboot
  exact ⟨hs.sp, hs.pc, hs.programBreak, hs.status, hs.stdout, hs.otherRegs⟩

/-- Settles O58: argc, the pointers and the two terminators are the vector's entries, one by one. -/
theorem bootLaysOutMemory : Obligations.BootLaysOutMemory := by
  intro l s hwf hboot
  have hs := booted_of_boot hwf hboot
  have hvector := hs.stack.vector
  refine ⟨hs.data, hvector 0 _ rfl, fun i hi => hvector (1 + i) _ ?pointer, hvector (1 + l.argv.length) _ ?first,
    hvector (2 + l.argv.length) _ ?second, hs.stack.string, hs.zeroFill⟩
  case pointer => simp [Launch.vector, hi, add_comm 1 i, List.getElem?_append_left]
  case first => simp [Launch.vector, add_comm 1]
  case second => simp [Launch.vector, add_comm 2]

/-- Settles O60: the pc at CODE_BASE has index 0 in the code store. -/
theorem firstCycleRunsFirstRecord : Obligations.FirstCycleRunsFirstRecord := by
  intro l w i hwf hw hi
  obtain ⟨s, hboot, hs⟩ := exists_boot_booted hwf
  refine ⟨s, hboot, hs.status, hs.pc, stepRunsTheFetchedRecord s w i hs.status ?aligned ?word hi⟩
  case aligned => rw [hs.pc]; exact (launchFacts hwf).codeAligned
  case word => rw [hs.pc, hs.launch, BitVec.sub_self]; exact hw

theorem launch_default_wf : Launch.wf Launch.default = true := by decide

theorem boot_default : boot Launch.default = .next State.reset := rfl

/-- Settles O55: the reset sequence is run on the one launch; of the registers, that of every launch holds (O57). -/
theorem resetIsTheBootedDefaultLaunch : Obligations.ResetIsTheBootedDefaultLaunch := by
  obtain ⟨-, -, -, -, -, hregs⟩ := bootSetsControlState Launch.default State.reset launch_default_wf boot_default
  exact ⟨boot_default, rfl, rfl, rfl, rfl, rfl, hregs, fun _ => rfl⟩

/-- Settles O54: State.reset is the state its launch boots to (O55), and every booted state meets the invariant. -/
theorem resetMeetsInvariant : Obligations.ResetMeetsInvariant :=
  (booted_of_boot launch_default_wf boot_default).inv launch_default_wf

end Sys2Proof.Machine
end
